-- ==== Sys2Proof/Word.lean ====
section
/-! DEFINITION. The words of the machine: a byte of SRC or DST, a 32-bit register, a bit string. -/
namespace Sys2Proof

/-- One byte of SRC, DST or the compressed file (00_scope.md R10). -/
abbrev Byte := BitVec 8

/-- One host register or command word (10_state.md R21, 30_encoding.md R100). -/
abbrev Word := BitVec 32

/-- A bit string, element 0 first (00_scope.md R11). -/
abbrev Bits := List Bool

end Sys2Proof
end

