-- ==== Sys2Proof/Syntax.lean ====
section
/-! DEFINITION. The nine commands, one constructor per row of spec/opcode_table.json. A command word has no operand
fields (30_encoding.md R101), so no constructor has an argument. -/
namespace Sys2Proof

/-- The commands of 30_encoding.md R102, in opcode order. -/
inductive Instr where
  | clear          -- 0x1
  | count          -- 0x2
  | build          -- 0x3
  | serialize      -- 0x4
  | deserialize    -- 0x5
  | encodePayload  -- 0x6
  | decodePayload  -- 0x7
  | encode         -- 0x8
  | decode         -- 0x9
  deriving DecidableEq, Repr

end Sys2Proof
end

