-- ==== Sys2Proof/WellFormed.lean ====
section
/-! DEFINITION. Well-formedness of instructions and of command words. -/
namespace Sys2Proof

/-- Every command is well-formed: it has no operand that could be out of range (30_encoding.md R101). -/
def Instr.wellFormed : Instr → Bool
  | .clear | .count | .build | .serialize | .deserialize => true
  | .encodePayload | .decodePayload | .encode | .decode => true

/-- The reserved field W[31:4] of a command word is 0 (30_encoding.md R100). -/
def reservedClear (w : Word) : Bool := w.extractLsb' 4 28 == 0#28

/-- The field OP = W[3:0] names one of the nine commands (30_encoding.md R102). -/
def opAssigned (w : Word) : Bool :=
  let op := (w.extractLsb' 0 4).toNat
  decide (1 ≤ op) && decide (op ≤ 9)

/-- A command word is legal: the negation of 30_encoding.md R104. -/
def wordLegal (w : Word) : Bool := reservedClear w && opAssigned w

end Sys2Proof
end

