-- ==== Sys2Proof/Decode.lean ====
section
/-! DEFINITION. Decoding of a command word, total and rejecting by name, and after it the encoder. -/
namespace Sys2Proof

/-- Why a command word is illegal (30_encoding.md R104). -/
inductive Reject where
  | reservedBits              -- W[31:4] is not 0
  | unassigned (op : Nat)     -- W[3:0] is 0x0 or in 0xA..0xF
  deriving DecidableEq, Repr

/-- The opcode map of 30_encoding.md R102. -/
def decodeOp : Nat → Except Reject Instr
  | 1 => .ok .clear
  | 2 => .ok .count
  | 3 => .ok .build
  | 4 => .ok .serialize
  | 5 => .ok .deserialize
  | 6 => .ok .encodePayload
  | 7 => .ok .decodePayload
  | 8 => .ok .encode
  | 9 => .ok .decode
  | op => .error (.unassigned op)

/-- Decode the 32-bit command word W (30_encoding.md R100, R102, R104). -/
def decode (w : Word) : Except Reject Instr :=
  if w.extractLsb' 4 28 = 0#28 then decodeOp (w.extractLsb' 0 4).toNat else .error .reservedBits

/-- The word of a command (30_encoding.md R102). -/
def encode : Instr → Word
  | .clear         => 0x00000001#32
  | .count         => 0x00000002#32
  | .build         => 0x00000003#32
  | .serialize     => 0x00000004#32
  | .deserialize   => 0x00000005#32
  | .encodePayload => 0x00000006#32
  | .decodePayload => 0x00000007#32
  | .encode        => 0x00000008#32
  | .decode        => 0x00000009#32

/-- The command word of an instruction numbered as the opcode table numbers it: its low `nbits` bits are those of w, and every
bit above is 0. The word is written to CMD whole (20_memory.md R75), so it has no byte order. -/
def tableWord (nbits w : Nat) : Word := BitVec.ofNat 32 (w % 2 ^ nbits)

/-- What the decoder reads from a row of spec/opcode_table.json. -/
def decodeTableWord (nbits w : Nat) : Option Instr :=
  match decode (tableWord nbits w) with
  | .ok i => some i
  | .error _ => none

end Sys2Proof
end

