-- ==== Sys2Proof/Machine/Types.lean ====
section
/-! DEFINITION. The data the machine's state is made of: trees, error codes, the pending command, host events. -/
namespace Sys2Proof.Machine

/-- A tree of 00_scope.md R13: `Leaf(s)` or `Node(l, r)`. Its storage layout is not observable (10_state.md R43, D37). -/
inductive CodeTree where
  | leaf (v : Byte)
  | node (l r : CodeTree)
  deriving DecidableEq, Repr, Inhabited

/-- The error codes of 60_exceptions.md R260. Codes 9 to 15 are never produced (R263), so they have no constructor. -/
inductive ErrorCode where
  | none              -- 0: success
  | ioError           -- 1
  | corruptHeader     -- 2
  | corruptPayload    -- 3
  | singleSymbol      -- 4: reserved, raised by no command (R262)
  | emptySource       -- 5
  | illegalCommand    -- 6
  | sequenceError     -- 7
  | symbolNotInTree   -- 8
  deriving DecidableEq, Repr, Inhabited

/-- The pending-command state of 10_state.md R48. -/
inductive Pending where
  | idle
  | running (w : Word)
  deriving DecidableEq, Repr, Inhabited

/-- The entry of BUILD's priority queue: count, sequence number, subtree (40_tree.md R143). -/
structure Entry where
  cnt  : Nat
  seq  : Nat
  tree : CodeTree
  deriving DecidableEq, Repr

/-- A range [lo, hi) of DST offsets whose bytes are unspecified, and the number of the draw they come from
(60_exceptions.md R266, 70_reset_and_hazards.md R291, R295). -/
structure FreeRange where
  lo   : Nat
  hi   : Nat
  draw : Nat
  deriving DecidableEq, Repr

/-- What the host does. A window access carries its offset and its size in bytes, because only some are legal
(20_memory.md R75, R76). Stores to SRC and accesses to DST are made "by its own means" (R71, R73). -/
inductive HostAction where
  | write (off size : Nat) (v : Word)
  | read (off size : Nat)
  | storeSrc (a : Nat) (v : Byte)
  | storeDst (a : Nat) (v : Byte)
  | loadDst (a : Nat)
  deriving DecidableEq, Repr

/-- The events of 43_operations.md R230. `core` is the core's own turn: `Complete` where a command runs. `Accept` is the case
of a CMD write while idle. -/
inductive Event where
  | host (a : HostAction)
  | core
  | reset
  deriving DecidableEq, Repr

/-- The registers of the window, by name (10_state.md R21). -/
inductive Reg where
  | cmd | status | ctrl | srcLen | outCap | outLen | payloadOff | leafCnt
  | freq (v : Byte)
  | codeLen (v : Byte)
  | codeBits (v : Byte) (w : Nat)
  | reserved
  deriving DecidableEq, Repr

/-- The registers and tables a command writes beside STATUS, OUT_LEN and DST (30_encoding.md R103). -/
structure Written where
  freq       : Bool
  tree       : Bool
  leafCnt    : Bool
  payloadOff : Bool
  deriving DecidableEq, Repr

end Sys2Proof.Machine
end

