-- ==== Sys2Proof/Config.lean ====
section
/-! DEFINITION. What is fixed for the machine, and the free values: opaque constants without a body, of which nothing can be
proved but what holds of every value. -/
namespace Sys2Proof

/-- The size of the register window in bytes (10_state.md R21). -/
def Config.windowBytes : Nat := 0x4000

/-- The size of each of the spaces SRC and DST: offsets 0..2^32−1 (20_memory.md R71, R73). -/
def Config.spaceBytes : Nat := 2 ^ 32

/-- The byte SRC holds at an offset nothing has stored to: any value (70_reset_and_hazards.md R292). Log entry 4. -/
opaque Config.srcPowerOn : Nat → Byte

/-- The byte DST holds at an offset nothing has stored to: any value (70_reset_and_hazards.md R292). Log entry 4. -/
opaque Config.dstPowerOn : Nat → Byte

/-- The DST byte of draw n at an offset: unspecified (60_exceptions.md R266, 70_reset_and_hazards.md R291, R295, R298).
Log entries 5, 8 and 9. -/
opaque Config.freeByte : (n offset : Nat) → Byte

/-- The word of draw n for the register at a window offset: unspecified (10_state.md R47, 60_exceptions.md R266,
70_reset_and_hazards.md R295). Log entries 5, 6 and 7. -/
opaque Config.freeWord : (n offset : Nat) → Word

/-- The tree of draw n (70_reset_and_hazards.md R295). Log entry 7. -/
opaque Config.freeTree : Nat → Option Machine.CodeTree

/-- The error code of draw n: any code of 60_exceptions.md R260, or none (70_reset_and_hazards.md R295). Log entry 7. -/
opaque Config.freeError : Nat → Machine.ErrorCode

end Sys2Proof
end

