-- ==== Sys2Proof/Machine/Bits.lean ====
section
/-! DEFINITION. Bit strings and their mapping onto bytes and words (00_scope.md R9 to R12, 30_encoding.md R110, R111). -/
namespace Sys2Proof.Machine

/-- `ceil_div(a, b)` (00_scope.md R9). -/
def divCeil (a b : Nat) : Nat := (a + b - 1) / b

/-- The number whose bit k is element k of the string. -/
def bitsToNat : Bits → Nat
  | [] => 0
  | b :: bs => b.toNat + 2 * bitsToNat bs

/-- The byte whose bit p is element p of the string, or 0 past its end (30_encoding.md R110). -/
def packByte (S : Bits) : Byte := BitVec.ofNat 8 (bitsToNat (S.take 8))

/-- `pack(S, n)`: byte j holds the elements 8·j to 8·j + 7 (00_scope.md R11, 30_encoding.md R110). -/
def pack : Bits → Nat → List Byte
  | _, 0 => []
  | S, n + 1 => packByte S :: pack (S.drop 8) n

/-- The word whose bit k is element k of the string, or 0 past its end (10_state.md R38). -/
def packWord (S : Bits) : Word := BitVec.ofNat 32 (bitsToNat (S.take 32))

/-- `msb8(v)`: the bits of a byte, the most significant first (00_scope.md R12). -/
def msb8 (v : Byte) : Bits :=
  [v.getLsbD 7, v.getLsbD 6, v.getLsbD 5, v.getLsbD 4, v.getLsbD 3, v.getLsbD 2, v.getLsbD 1, v.getLsbD 0]

/-- `val8` at position i of a bit stream: the sum of bit i + k times 2^(7 − k) (00_scope.md R12). -/
def val8 (bit : Nat → Bool) (i : Nat) : Byte :=
  BitVec.ofNat 8 ((List.range 8).map fun k => (bit (i + k)).toNat * 2 ^ (7 - k)).sum

/-- Bit i of the bit stream whose bytes `byteAt` gives by their place in the stream (30_encoding.md R110). -/
def streamBit (byteAt : Nat → Byte) (i : Nat) : Bool := (byteAt (i / 8)).getLsbD (i % 8)

/-- The 256 byte values in ascending order. -/
def allBytes : List Byte := (List.range 256).map (BitVec.ofNat 8)

end Sys2Proof.Machine
end

