-- ==== Sys2Proof/Machine/State.lean ====
section
/-! DEFINITION. The state of the machine, why a step can stop, and the state after reset. -/
namespace Sys2Proof.Machine

/-- Why the machine stops. No command raises a fault: a command's errors are next states (60_exceptions.md R264). -/
inductive Fault where
  /-- Raised by a host store to SRC or DST, or a load from DST, at an offset of 2^32 or more: the spaces have offsets
  0..2^32−1 (20_memory.md R71, R73). Safe: the run ends. Log entry 12. -/
  | noSuchOffset (a : Nat)
  deriving DecidableEq, Repr

/-- Why the model takes no step. -/
inductive Refusal where
  /-- Raised by an arm of `exec` whose instruction has no meaning yet. Safe: nothing is claimed of it. -/
  | notModelled (mnemonic : String)
  /-- Raised by a host access to the window at an offset outside its 16 KiB (10_state.md R39; 93_implementation_defined.md
  item 19). Safe. Log entry 11. -/
  | outsideWindow (off : Nat)
  /-- Raised by a host access to the window that is not an aligned 32-bit access: "A model refuses it" (20_memory.md R76).
  Safe. Log entry 11. -/
  | notAlignedWord (off size : Nat)
  deriving DecidableEq, Repr

/-- The state of the core, its two memories, and the model's own fields (10_state.md R20). STATUS.BUSY, STATUS.ERR,
STATUS.TREE_VALID, the IRQ output and the code table are views (Flags.lean, Operands.lean). Log entry 13. -/
structure State where
  /-- idle or running(W) (10_state.md R48) -/
  pending    : Pending
  /-- STATUS.DONE (R25) -/
  done       : Bool
  /-- STATUS.ERRCODE (R26) -/
  error      : ErrorCode
  /-- STATUS.LASTOP (R27) -/
  lastOp     : BitVec 4
  /-- STATUS.FREQ_VALID (R28) -/
  freqValid  : Bool
  /-- CTRL.IRQ_EN (R30) -/
  irqEn      : Bool
  /-- SRC_LEN (R31) -/
  srcLen     : Word
  /-- OUT_CAP (R32) -/
  outCap     : Word
  /-- OUT_LEN (R33) -/
  outLen     : Word
  /-- PAYLOAD_OFF (R34) -/
  payloadOff : Word
  /-- LEAFCNT, a number from 0 to 256 (R35) -/
  leafCnt    : Nat
  /-- the table FREQ (R42) -/
  freq       : Vector Word 256
  /-- the table TREE (R43) -/
  tree       : Option CodeTree
  /-- SRC: the stored bytes, offsets strictly rising (20_memory.md R71) -/
  src        : List Host.Cell
  /-- DST: the stored bytes, offsets strictly rising (20_memory.md R73) -/
  dst        : List Host.Cell
  /-- the ranges of DST left unspecified, newest first (60_exceptions.md R266) -/
  dstFree    : List FreeRange
  /-- the host stored into SRC[0..SRC_LEN−1] under the running command (70_reset_and_hazards.md R295) -/
  srcHazard  : Bool
  /-- the offsets of DST in [o0, OUT_CAP) the host stored to under the running command (R295) -/
  dstHazard  : List Nat
  /-- the model's own: the number of the next draw of a free value (log entry 3) -/
  draws      : Nat
  /-- the model's own: what the last host read returned (43_operations.md R236; log entry 10) -/
  readData   : Word
  /-- the model's own: the events to come, in order (43_operations.md R230; log entry 1) -/
  inbox      : List Event
  deriving DecidableEq, Repr

/-- The state after reset at power-on (10_state.md R50). DESIGN CHOICE for the fields the spec gives no reset value: nothing is
stored in SRC or DST (log entry 4), no hazard (7, 8), draw 0 (3), `readData` 0 (10), no event to come (1). -/
def State.reset : State where
  pending    := .idle
  done       := false
  error      := .none
  lastOp     := 0#4
  freqValid  := false
  irqEn      := false
  srcLen     := 0#32
  outCap     := 0#32
  outLen     := 0#32
  payloadOff := 0#32
  leafCnt    := 0
  freq       := Vector.replicate 256 0#32
  tree       := none
  src        := []
  dst        := []
  dstFree    := []
  srcHazard  := false
  dstHazard  := []
  draws      := 0
  readData   := 0#32
  inbox      := []

end Sys2Proof.Machine
end

