-- ==== Sys2Proof/Machine/Ops.lean ====
section
/-! DEFINITION. The shared operations: memory, appending output, unspecified output, the run of a command and how it raises,
and the completion that records an error (60_exceptions.md R264), with the acknowledgement beside it. -/
namespace Sys2Proof.Machine

/-! ### Memory: stored bytes with rising offsets. An offset that is not listed holds no stored byte (log entry 4). -/

/-- The stored byte at an offset. -/
def Memory.find : List Host.Cell → Nat → Option Byte
  | [], _ => none
  | (b, v) :: m, a => if a = b then some v else Memory.find m a

/-- Store one byte. -/
def Memory.write : List Host.Cell → Nat → Byte → List Host.Cell
  | [], a, v => [(a, v)]
  | (b, w) :: m, a, v =>
    if a < b then (a, v) :: (b, w) :: m
    else if a = b then (a, v) :: m
    else (b, w) :: Memory.write m a v

/-- Store bytes at increasing offsets (20_memory.md R74). -/
def Memory.writeBytes : List Host.Cell → Nat → List Byte → List Host.Cell
  | m, _, [] => m
  | m, o, v :: vs => Memory.writeBytes (Memory.write m o v) (o + 1) vs

/-- Forget the bytes stored in [lo, hi). -/
def Memory.forget (m : List Host.Cell) (lo hi : Nat) : List Host.Cell :=
  m.filter fun c => decide (c.1 < lo) || decide (hi ≤ c.1)

/-- The canonical form: offsets strictly rising, each inside the space. No entry can equal what an unlisted offset reads as,
because an unlisted offset holds no stored byte. -/
abbrev Memory.wf (m : List Host.Cell) : Prop :=
  m.Pairwise (fun c d => c.1 < d.1) ∧ ∀ c ∈ m, c.1 < Config.spaceBytes

/-- `SrcRead(a)` (20_memory.md R72): never fails. A byte nothing has stored is any value (70_reset_and_hazards.md R292). -/
def srcRead (s : State) (a : Nat) : Byte := (Memory.find s.src a).getD (Config.srcPowerOn a)

/-- The value of an unstored DST byte: that of the newest unspecified range around it, or the power-on value. -/
def dstUnstored (free : List FreeRange) (a : Nat) : Byte :=
  match free.find? fun r => decide (r.lo ≤ a) && decide (a < r.hi) with
  | some r => Config.freeByte r.draw a
  | none => Config.dstPowerOn a

/-- The byte of DST at an offset. -/
def dstRead (s : State) (a : Nat) : Byte := (Memory.find s.dst a).getD (dstUnstored s.dstFree a)

/-! ### Unspecified values -/

/-- Every DST byte in [lo, hi) becomes unspecified; the others are unchanged. -/
def unspecifyDst (lo hi : Nat) (s : State) : State :=
  { s with
    dst := Memory.forget s.dst lo hi
    dstFree := ⟨lo, hi, s.draws⟩ :: s.dstFree
    draws := s.draws + 1 }

/-- Class P of 60_exceptions.md R266: OUT_LEN and the DST bytes in [o0, OUT_CAP) become unspecified. -/
def unspecifyOutput (o0 : Nat) (s : State) : State :=
  { unspecifyDst o0 s.outCap.toNat s with outLen := Config.freeWord s.draws 0x014 }

/-! ### The run of a command -/

/-- What a command's pseudocode leaves: a state, and the error it raised or `none` (43_operations.md R230: `exec(W, s) =
(s', result)`). -/
structure Run where
  state : State
  error : ErrorCode
  deriving DecidableEq, Repr

/-- The command has come to its end without an error. -/
def succeed (s : State) : Run := ⟨s, .none⟩

/-- `raise E` (00_scope.md R14): nothing after it takes effect. -/
def raise (e : ErrorCode) (s : State) : Run := ⟨s, e⟩

/-- The next step of a composite command, run on the state the previous step left, unless that step raised
(43_operations.md R231, R240). -/
def Run.andThen (r : Run) (f : State → Run) : Run :=
  if r.error = .none then f r.state else r

/-- The output rule of an error of class P, for the errors `p` picks (60_exceptions.md R266). -/
def Run.partialOutput (p : ErrorCode → Bool) (o0 : Nat) (r : Run) : Run :=
  if p r.error then { r with state := unspecifyOutput o0 r.state } else r

/-- Append a command's output to DST at OUT_LEN, or raise IO_ERROR where it does not fit; the comparison is of unbounded
integers (20_memory.md R74). -/
def append (out : List Byte) (s : State) : Run :=
  if s.outLen.toNat + out.length ≤ s.outCap.toNat then
    succeed { s with
      dst := Memory.writeBytes s.dst s.outLen.toNat out
      outLen := BitVec.ofNat 32 (s.outLen.toNat + out.length) }
  else raise .ioError s

/-! ### Acceptance, completion and acknowledgement -/

/-- `Accept(W)` (43_operations.md R238). Any word is accepted, legal or not. -/
def accept (w : Word) (s : State) : State :=
  { s with
    pending := .running w
    done := false
    error := .none
    lastOp := w.extractLsb' 0 4
    srcHazard := false
    dstHazard := [] }

/-- A drawn table FREQ. -/
def freeFreq (n : Nat) : Vector Word 256 := Vector.ofFn fun i => Config.freeWord n (0x400 + 4 * i.val)

/-- The tree's leaf values in preorder: `leaves(t)` (00_scope.md R13). -/
def CodeTree.leaves : CodeTree → List Byte
  | .leaf v => [v]
  | .node l r => l.leaves ++ r.leaves

/-- `L(t)` (00_scope.md R13). -/
def CodeTree.leafCount (t : CodeTree) : Nat := t.leaves.length

/-- A tree is well-formed: its leaf values are pairwise distinct, and they are 1 to 256 (00_scope.md R13). Every internal node
of a `CodeTree` has exactly two children. -/
abbrev CodeTree.wf (t : CodeTree) : Prop := t.leaves.Nodup ∧ 1 ≤ t.leafCount ∧ t.leafCount ≤ 256

/-- A drawn TREE: none or a well-formed tree (10_state.md R43). -/
def freeTree (n : Nat) : Option CodeTree :=
  match Config.freeTree n with
  | some t => if t.wf then some t else none
  | none => none

/-- The result of a command whose source the host changed while it ran: every register and table the command writes, OUT_LEN,
DST[o0 .. OUT_CAP−1] and the error code are unspecified, and nothing else is touched (70_reset_and_hazards.md R295; log
entry 7). -/
def unstableRun (w : Written) (o0 : Nat) (s : State) : Run where
  error := Config.freeError s.draws
  state :=
    { unspecifyOutput o0 s with
      freq := if w.freq then freeFreq s.draws else s.freq
      freqValid := if w.freq then (Config.freeWord s.draws 0x004).getLsbD 12 else s.freqValid
      tree := if w.tree then freeTree s.draws else s.tree
      leafCnt := if w.leafCnt then (Config.freeWord s.draws 0x01C).toNat % 257 else s.leafCnt
      payloadOff := if w.payloadOff then Config.freeWord s.draws 0x018 else s.payloadOff }

/-- The DST bytes the host stored to under the running command are unspecified after it (70_reset_and_hazards.md R295; log
entry 8). -/
def spoilDst : List Nat → State → State
  | [], s => s
  | a :: as, s => spoilDst as (unspecifyDst a (a + 1) s)

/-- `Complete` (43_operations.md R239) with the error termination record of 60_exceptions.md R264: the command's changes are
applied, STATUS gets DONE and the error code, and the core is idle. `s` is the state the command ran on, `r` its run. -/
def finish (w : Written) (o0 : Nat) (s : State) (r : Run) : State :=
  let r := if s.srcHazard then unstableRun w o0 s else r
  { spoilDst s.dstHazard r.state with
    pending := .idle
    done := true
    error := r.error
    srcHazard := false
    dstHazard := [] }

/-- The completion of an illegal word: ILLEGAL_COMMAND, and no register, table or memory changes (43_operations.md R234). -/
def finishIllegal (s : State) : State :=
  finish ⟨false, false, false, false⟩ s.outLen.toNat s (raise .illegalCommand s)

/-- The write-1-to-clear of STATUS by which the host acknowledges a completion (43_operations.md R237). The core has no
return operation (60_exceptions.md R272). -/
def acknowledge (s : State) : State := { s with done := false, error := .none }

end Sys2Proof.Machine
end

