-- ==== Sys2Proof/Machine/Operands.lean ====
section
/-! DEFINITION. What the commands read: SRC bytes, the table FREQ, the code table, the header and content bits. -/
namespace Sys2Proof.Machine

/-- The bytes SRC[0..SRC_LEN−1] in increasing offset (42_bitstream.md R201). -/
def srcBytes (s : State) : List Byte := (List.range s.srcLen.toNat).map (srcRead s)

/-- FREQ[v] of a table (10_state.md R42). -/
def freqAt (f : Vector Word 256) (v : Byte) : Word := f[v.toNat]'v.isLt

/-- The byte values present in a table, ascending (40_tree.md R147). -/
def symbols (f : Vector Word 256) : List Byte := allBytes.filter fun v => decide (0 < (freqAt f v).toNat)

/-- `path(t, v)`: 0 for each left descent and 1 for each right descent from the root to the leaf of v (00_scope.md R13). -/
def CodeTree.path : CodeTree → Byte → Option Bits
  | .leaf u, v => if u = v then some [] else none
  | .node l r, v =>
    match l.path v with
    | some p => some (false :: p)
    | none => (r.path v).map (true :: ·)

/-- `codes(t)`: the paths of a tree of two leaves or more (40_tree.md R150), and the one-bit code [0] of a lone leaf (R151). -/
def codes : CodeTree → Byte → Bits
  | .leaf u, v => if u = v then [false] else []
  | .node l r, v => ((CodeTree.node l r).path v).getD []

/-- The code table CODE, a function of TREE (10_state.md R44). -/
def codeOf : Option CodeTree → Byte → Bits
  | none, _ => []
  | some t, v => codes t v

/-- `HDR_BYTES(L)` (00_scope.md R8). -/
def hdrBytes (L : Nat) : Nat := divCeil (10 * L - 1) 8

/-- The leaf count a leaf count byte stands for: 0 means 256 (30_encoding.md R113). -/
def leafCountOf (c : Byte) : Nat := if c.toNat = 0 then 256 else c.toNat

/-- Header bit i of the file in SRC (41_header.md R181). -/
def hbit (s : State) (i : Nat) : Bool := streamBit (fun j => srcRead s (1 + j)) i

/-- Content bit j of the payload in SRC (42_bitstream.md R211). -/
def cbit (s : State) (j : Nat) : Bool := streamBit (fun k => srcRead s (s.payloadOff.toNat + k)) j

end Sys2Proof.Machine
end

