-- ==== Sys2Proof/Machine/Flags.lean ====
section
/-! DEFINITION. The fields of STATUS and the interrupt output, and the STATUS word (10_state.md R23 to R29, R41). -/
namespace Sys2Proof.Machine

/-- The error code numbers of 60_exceptions.md R260. -/
def ErrorCode.bits : ErrorCode → BitVec 4
  | .none            => 0#4
  | .ioError         => 1#4
  | .corruptHeader   => 2#4
  | .corruptPayload  => 3#4
  | .singleSymbol    => 4#4
  | .emptySource     => 5#4
  | .illegalCommand  => 6#4
  | .sequenceError   => 7#4
  | .symbolNotInTree => 8#4

/-- STATUS.BUSY: 1 exactly while a command is pending (10_state.md R24, R48). -/
def State.busy (s : State) : Bool :=
  match s.pending with
  | .idle => false
  | .running _ => true

/-- STATUS.ERR: 1 exactly when ERRCODE is not 0 (10_state.md R26). -/
def State.err (s : State) : Bool := decide (s.error ≠ .none)

/-- STATUS.TREE_VALID: 1 exactly when TREE holds a tree (10_state.md R28, R43). -/
def State.treeValid (s : State) : Bool := s.tree.isSome

/-- The interrupt output and STATUS.IRQ: DONE AND IRQ_EN (10_state.md R29, 60_exceptions.md R270). -/
def State.irq (s : State) : Bool := s.done && s.irqEn

/-- The STATUS word of its fields (10_state.md R23). -/
def packStatus (irq treeValid freqValid : Bool) (lastOp code : BitVec 4) (err done busy : Bool) : Word :=
  0#17 ++ BitVec.ofBool irq ++ BitVec.ofBool treeValid ++ BitVec.ofBool freqValid ++ lastOp ++ code ++ 0#1 ++
    BitVec.ofBool err ++ BitVec.ofBool done ++ BitVec.ofBool busy

/-- The STATUS register (10_state.md R23). -/
def statusWord (s : State) : Word :=
  packStatus s.irq s.treeValid s.freqValid s.lastOp s.error.bits s.err s.done s.busy

end Sys2Proof.Machine
end

