-- ==== Sys2Proof/Machine/Counting.lean ====
section
/-! DEFINITION. COUNT and BUILD (40_tree.md). -/
namespace Sys2Proof.Machine

/-! ### COUNT -/

/-- The counts of a byte sequence: f[v] is the number of its bytes that are v (40_tree.md R141, R142). -/
def countTable (bytes : List Byte) : Vector Word 256 :=
  Vector.ofFn fun i => BitVec.ofNat 32 (bytes.count (BitVec.ofNat 8 i.val))

/-- The pseudocode of COUNT (40_tree.md R141). -/
def runCount (s : State) : Run :=
  let f := countTable (srcBytes s)
  succeed { s with freq := f, leafCnt := (symbols f).length, freqValid := true, tree := none }

/-- COUNT, word 0x00000002 (40_tree.md R141). -/
def execCount (s : State) : Host.Outcome State Fault Refusal :=
  .next (finish ⟨true, true, true, false⟩ s.outLen.toNat s (runCount s))

/-! ### The priority queue -/

/-- The order of the queue: lower count first, then lower sequence number (40_tree.md R143). -/
def Entry.before (a b : Entry) : Bool :=
  decide (a.cnt < b.cnt) || (decide (a.cnt = b.cnt) && decide (a.seq < b.seq))

/-- `extractMin`: the least entry and the queue without it (40_tree.md R143). -/
def extractMin : List Entry → Option (Entry × List Entry)
  | [] => none
  | e :: q =>
    match extractMin q with
    | none => some (e, [])
    | some (m, rest) => if e.before m then some (e, q) else some (m, e :: rest)

/-- The merge of the two entries removed: the first becomes the left child (40_tree.md R145). -/
def mergeEntries (next : Nat) (a b : Entry) : Entry := ⟨a.cnt + b.cnt, next, .node a.tree b.tree⟩

/-- The loop of BUILD: merge while the queue holds two entries or more (40_tree.md R147). `fuel` bounds the L − 1 merges. -/
def mergeLoop : (fuel next : Nat) → List Entry → List Entry
  | 0, _, q => q
  | fuel + 1, next, q =>
    match extractMin q with
    | none => q
    | some (a, q₁) =>
      match extractMin q₁ with
      | none => q
      | some (b, q₂) => mergeLoop fuel (next + 1) (mergeEntries next a b :: q₂)

/-- The queue before the first merge: the leaves in ascending byte value, with seq 0, 1, ... (40_tree.md R144). -/
def initialQueue (f : Vector Word 256) : List Entry :=
  (symbols f).zipIdx.map fun (v, k) => ⟨(freqAt f v).toNat, k, .leaf v⟩

/-- The tree of the only entry of a queue. -/
def onlyTree : List Entry → Option CodeTree
  | [e] => some e.tree
  | _ => none

/-- The tree BUILD makes from a table; none exactly when no entry is positive (40_tree.md R147, R148). -/
def buildTree (f : Vector Word 256) : Option CodeTree :=
  let L := (symbols f).length
  onlyTree (mergeLoop L L (initialQueue f))

/-! ### BUILD -/

/-- The pseudocode of BUILD, with its on-error rule (40_tree.md R147). -/
def runBuild (s : State) : Run :=
  if s.freqValid = false then raise .sequenceError { s with tree := none }
  else
    match buildTree s.freq with
    | none => raise .emptySource { s with tree := none }
    | some t => succeed { s with tree := some t, leafCnt := (symbols s.freq).length }

/-- BUILD, word 0x00000003 (40_tree.md R147). Its errors are of class U (60_exceptions.md R266). -/
def execBuild (s : State) : Host.Outcome State Fault Refusal :=
  .next (finish ⟨false, true, true, false⟩ s.outLen.toNat s (runBuild s))

end Sys2Proof.Machine
end

