-- ==== Sys2Proof/Machine/Header.lean ====
section
/-! DEFINITION. SERIALIZE and DESERIALIZE (41_header.md). -/
namespace Sys2Proof.Machine

/-! ### SERIALIZE -/

/-- The header bit string of a tree, in preorder (41_header.md R171). -/
def hdr : CodeTree → Bits
  | .leaf v => true :: msb8 v
  | .node l r => false :: (hdr l ++ hdr r)

/-- The serializer's loop over an explicit stack, top first: the right child is pushed, then the left (41_header.md R172). The
model uses `hdr`; this is the loop the rule says gives the same string. -/
def hdrByStack : (fuel : Nat) → List CodeTree → Bits
  | 0, _ => []
  | _ + 1, [] => []
  | fuel + 1, .node l r :: stack => false :: hdrByStack fuel (l :: r :: stack)
  | fuel + 1, .leaf v :: stack => (true :: msb8 v) ++ hdrByStack fuel stack

/-- The output of SERIALIZE: the leaf count byte, then the packed header (41_header.md R175, 30_encoding.md R113, R114). -/
def headerBytes (t : CodeTree) : List Byte :=
  BitVec.ofNat 8 (t.leafCount % 256) :: pack (hdr t) (hdrBytes t.leafCount)

/-- The pseudocode of SERIALIZE (41_header.md R175). -/
def runSerialize (s : State) : Run :=
  match s.tree with
  | none => raise .sequenceError s
  | some t => append (headerBytes t) s

/-- SERIALIZE, word 0x00000004 (41_header.md R175). Its IO_ERROR is of class P (60_exceptions.md R266). -/
def execSerialize (s : State) : Host.Outcome State Fault Refusal :=
  .next (finish ⟨false, false, false, false⟩ s.outLen.toNat s
    ((runSerialize s).partialOutput (fun e => e == .ioError) s.outLen.toNat))

/-! ### DESERIALIZE -/

/-- A tree with holes, nodes not yet decided (41_header.md R182). The holes in preorder are the stack, top first: filling a
hole pops it and pushes the right child, then the left, so the next hole in preorder is the next to pop. Log entry 14. -/
inductive HoleTree where
  | hole
  | leaf (v : Byte)
  | node (l r : HoleTree)
  deriving DecidableEq, Repr

/-- Fill the first hole in preorder; none where there is no hole (41_header.md R182: a pop from an empty stack). -/
def HoleTree.fill : HoleTree → HoleTree → Option HoleTree
  | .hole, n => some n
  | .leaf _, _ => none
  | .node l r, n =>
    match l.fill n with
    | some l' => some (.node l' r)
    | none => (r.fill n).map (.node l ·)

/-- The tree where no hole remains. -/
def HoleTree.complete : HoleTree → Option CodeTree
  | .hole => none
  | .leaf v => some (.leaf v)
  | .node l r =>
    match l.complete, r.complete with
    | some a, some b => some (.node a b)
    | _, _ => none

/-- The variables of the parse loop (41_header.md R182). -/
structure Parse where
  root : HoleTree
  i    : Nat
  z    : Nat
  seen : List Byte
  deriving DecidableEq, Repr

/-- One pass of the parse loop at a header bit; none where it raises CORRUPT_HEADER (41_header.md R182, checks (a) to (d)). -/
def parseStep (bit : Nat → Bool) (L HB : Nat) (p : Parse) : Option Parse :=
  if bit p.i = false then
    match p.root.fill (.node .hole .hole) with
    | none => none                                                             -- check (a)
    | some root =>
      if L - 1 < p.z + 1 then none                                             -- check (b)
      else some { p with root := root, i := p.i + 1, z := p.z + 1 }
  else
    let v := val8 bit (p.i + 1)
    match p.root.fill (.leaf v) with
    | none => none                                                             -- check (a)
    | some root =>
      if HB < p.i + 9 then none                                                -- check (c)
      else if v ∈ p.seen then none                                             -- check (d)
      else some { p with root := root, i := p.i + 9, seen := v :: p.seen }

/-- The parse loop: while i < HB (41_header.md R182). Each pass moves i on, so `fuel` = HB passes are enough. -/
def parseLoop (bit : Nat → Bool) (L HB : Nat) : (fuel : Nat) → Parse → Option Parse
  | 0, p => some p
  | fuel + 1, p =>
    if p.i < HB then
      match parseStep bit L HB p with
      | none => none
      | some p' => parseLoop bit L HB fuel p'
    else some p

/-- The tree of header bits 0 .. 10·L − 2, or none where a check raises CORRUPT_HEADER (41_header.md R182; check (e) is
`HoleTree.complete`). -/
def parseHeader (bit : Nat → Bool) (L : Nat) : Option CodeTree :=
  let HB := 10 * L - 1
  match parseLoop bit L HB HB ⟨.hole, 0, 0, []⟩ with
  | none => none
  | some p => p.root.complete

/-- The pseudocode of DESERIALIZE, with its on-error rule (41_header.md R180, R182, R187). -/
def runDeserialize (s : State) : Run :=
  let fail := raise .corruptHeader { s with tree := none }
  if s.srcLen.toNat < 1 then fail
  else
    let L := leafCountOf (srcRead s 0)
    let H := hdrBytes L
    if s.srcLen.toNat < 1 + H then fail
    else
      match parseHeader (hbit s) L with
      | none => fail
      | some t => succeed { s with tree := some t, leafCnt := L, payloadOff := BitVec.ofNat 32 (1 + H) }

/-- DESERIALIZE, word 0x00000005 (41_header.md R187). Its errors are of class U (60_exceptions.md R266). -/
def execDeserialize (s : State) : Host.Outcome State Fault Refusal :=
  .next (finish ⟨false, true, true, true⟩ s.outLen.toNat s (runDeserialize s))

end Sys2Proof.Machine
end

