-- ==== Sys2Proof/Machine/Payload.lean ====
section
/-! DEFINITION. ENCODE_PAYLOAD and DECODE_PAYLOAD (42_bitstream.md). -/
namespace Sys2Proof.Machine

/-! ### ENCODE_PAYLOAD -/

/-- The payload bit string P of source bytes (42_bitstream.md R201). -/
def payloadBits (code : Byte → Bits) (bytes : List Byte) : Bits := bytes.flatMap code

/-- The marker bit, which exists only when N mod 8 is not 0 (42_bitstream.md R202). -/
def marker (N : Nat) : Bits := if N % 8 = 0 then [] else [true]

/-- The trailer byte T (42_bitstream.md R203). -/
def trailer (N : Nat) : Byte := BitVec.ofNat 8 ((8 - N % 8) % 8)

/-- The payload bytes and the trailer byte of a payload bit string (42_bitstream.md R202 to R204). -/
def payloadBytes (P : Bits) : List Byte :=
  pack (P ++ marker P.length) (divCeil P.length 8) ++ [trailer P.length]

/-- The pseudocode of ENCODE_PAYLOAD (42_bitstream.md R204). -/
def runEncodePayload (s : State) : Run :=
  match s.tree with
  | none => raise .sequenceError s
  | some t =>
    if s.srcLen.toNat = 0 then raise .emptySource s
    else if (srcBytes s).any fun v => (codes t v).isEmpty then raise .symbolNotInTree s
    else append (payloadBytes (payloadBits (codes t) (srcBytes s))) s

/-- ENCODE_PAYLOAD, word 0x00000006 (42_bitstream.md R204). Its IO_ERROR is of class P (60_exceptions.md R266). -/
def execEncodePayload (s : State) : Host.Outcome State Fault Refusal :=
  .next (finish ⟨false, false, false, false⟩ s.outLen.toNat s
    ((runEncodePayload s).partialOutput (fun e => e == .ioError) s.outLen.toNat))

/-! ### DECODE_PAYLOAD -/

/-- The tree walk over content bits from the cursor `cur`, for a tree of two leaves or more; none where the bits end with the
cursor not at the root (42_bitstream.md R212, R214). A cursor below the root is a smaller tree, so it never equals the root
(log entry 15). -/
def walk (root : CodeTree) : CodeTree → Bits → Option (List Byte)
  | cur, [] => if cur = root then some [] else none
  | .leaf _, _ :: _ => none
  | .node l r, b :: bs =>
    match (if b then r else l) with
    | .leaf v => (walk root root bs).map (v :: ·)
    | .node l' r' => walk root (.node l' r') bs

/-- The walk of a tree of one leaf: each 0 bit emits its value, a 1 bit is no code (42_bitstream.md R213). -/
def walkLeaf (v : Byte) : Bits → Option (List Byte)
  | [] => some []
  | false :: bs => (walkLeaf v bs).map (v :: ·)
  | true :: _ => none

/-- The bytes that content bits decode to, or none where the walk raises CORRUPT_PAYLOAD (42_bitstream.md R212 to R214). -/
def decodeBits : CodeTree → Bits → Option (List Byte)
  | .leaf v, bs => walkLeaf v bs
  | .node l r, bs => walk (.node l r) (.node l r) bs

/-- The content bits of the payload in SRC, or none where the framing raises CORRUPT_PAYLOAD (42_bitstream.md R210, R211). -/
def contentBits (s : State) : Option Bits :=
  if s.srcLen.toNat < s.payloadOff.toNat + 2 then none
  else
    let T := (srcRead s (s.srcLen.toNat - 1)).toNat
    if 8 < T then none
    else
      let nc := s.srcLen.toNat - s.payloadOff.toNat - 1
      some ((List.range (8 * nc - T)).map (cbit s))

/-- The pseudocode of DECODE_PAYLOAD (42_bitstream.md R215). -/
def runDecodePayload (s : State) : Run :=
  match s.tree with
  | none => raise .sequenceError s
  | some t =>
    match contentBits s with
    | none => raise .corruptPayload s
    | some bs =>
      match decodeBits t bs with
      | none => raise .corruptPayload s
      | some out => append out s

/-- DECODE_PAYLOAD, word 0x00000007 (42_bitstream.md R215). IO_ERROR and CORRUPT_PAYLOAD are of class P (60_exceptions.md
R266). -/
def execDecodePayload (s : State) : Host.Outcome State Fault Refusal :=
  .next (finish ⟨false, false, false, false⟩ s.outLen.toNat s
    ((runDecodePayload s).partialOutput (fun e => e == .ioError || e == .corruptPayload) s.outLen.toNat))

end Sys2Proof.Machine
end

