-- ==== Sys2Proof/Machine/Composite.lean ====
section
/-! DEFINITION. CLEAR and the composite commands ENCODE and DECODE (43_operations.md). -/
namespace Sys2Proof.Machine

/-- The pseudocode of CLEAR (43_operations.md R233). -/
def runClear (s : State) : Run :=
  succeed { s with
    freq := Vector.replicate 256 0#32
    freqValid := false
    tree := none
    leafCnt := 0
    outLen := 0#32
    payloadOff := 0#32 }

/-- CLEAR, word 0x00000001 (43_operations.md R233). -/
def execClear (s : State) : Host.Outcome State Fault Refusal :=
  .next (finish ⟨true, true, true, true⟩ s.outLen.toNat s (runClear s))

/-- The steps of ENCODE, the first that raises being the last (43_operations.md R231, R240). -/
def runEncode (s : State) : Run :=
  (((runCount { s with outLen := 0#32 }).andThen runBuild).andThen runSerialize).andThen runEncodePayload

/-- ENCODE, word 0x00000008 (43_operations.md R231). Every error of it is of class P (60_exceptions.md R266). -/
def execEncode (s : State) : Host.Outcome State Fault Refusal :=
  .next (finish ⟨true, true, true, false⟩ 0 s ((runEncode s).partialOutput (fun e => e != .none) 0))

/-- The steps of DECODE, the first that raises being the last (43_operations.md R232, R240). -/
def runDecode (s : State) : Run :=
  (runDeserialize { s with outLen := 0#32 }).andThen runDecodePayload

/-- DECODE, word 0x00000009 (43_operations.md R232). Every error of it is of class P (60_exceptions.md R266). -/
def execDecode (s : State) : Host.Outcome State Fault Refusal :=
  .next (finish ⟨false, true, true, true⟩ 0 s ((runDecode s).partialOutput (fun e => e != .none) 0))

end Sys2Proof.Machine
end

