-- ==== Sys2Proof/Machine/Window.lean ====
section
/-! DEFINITION. The register window, the host's accesses, and the reset event (43_operations.md R235 to R238, 10_state.md R21 to
R39, R47, 70_reset_and_hazards.md R290 to R295). -/
namespace Sys2Proof.Machine

/-- The register at an aligned offset of the window (10_state.md R21). -/
def regAt (off : Nat) : Reg :=
  if off = 0x000 then .cmd
  else if off = 0x004 then .status
  else if off = 0x008 then .ctrl
  else if off = 0x00C then .srcLen
  else if off = 0x010 then .outCap
  else if off = 0x014 then .outLen
  else if off = 0x018 then .payloadOff
  else if off = 0x01C then .leafCnt
  else if off < 0x400 then .reserved
  else if off < 0x800 then .freq (BitVec.ofNat 8 ((off - 0x400) / 4))
  else if off < 0xC00 then .codeLen (BitVec.ofNat 8 ((off - 0x800) / 4))
  else if off < 0x1000 then .reserved
  else if off < 0x3000 then .codeBits (BitVec.ofNat 8 ((off - 0x1000) / 32)) ((off - 0x1000) % 32 / 4)
  else .reserved

/-- The value of a register while the core is idle (43_operations.md R236, 10_state.md R22 to R39). -/
def regValue (s : State) : Reg → Word
  | .cmd => 0#32
  | .status => statusWord s
  | .ctrl => (BitVec.ofBool s.irqEn).setWidth 32
  | .srcLen => s.srcLen
  | .outCap => s.outCap
  | .outLen => s.outLen
  | .payloadOff => s.payloadOff
  | .leafCnt => (BitVec.ofNat 9 s.leafCnt).setWidth 32
  | .freq v => freqAt s.freq v
  | .codeLen v => (BitVec.ofNat 8 (codeOf s.tree v).length).setWidth 32
  | .codeBits v w => packWord ((codeOf s.tree v).drop (32 * w))
  | .reserved => 0#32

/-- The value of a register while the command of word w runs (10_state.md R47). `any` is an unspecified word. -/
def busyValue (s : State) (w : Word) (any : Word) : Reg → Word
  | .cmd => 0#32
  | .status => packStatus false (any.getLsbD 13) (any.getLsbD 12) (w.extractLsb' 0 4) 0#4 false false true
  | .ctrl => regValue s .ctrl
  | .srcLen => regValue s .srcLen
  | .outCap => regValue s .outCap
  | .outLen | .payloadOff | .leafCnt | .freq _ | .codeLen _ | .codeBits _ _ => any
  | .reserved => 0#32

/-- `HostRead(off)` of an aligned offset of the window (43_operations.md R236). While BUSY every read takes a fresh draw
(10_state.md R47; log entry 6). -/
def hostRead (off : Nat) (s : State) : State :=
  match s.pending with
  | .idle => { s with readData := regValue s (regAt off) }
  | .running w => { s with readData := busyValue s w (Config.freeWord s.draws off) (regAt off), draws := s.draws + 1 }

/-- The effect of writing v to a register while idle (43_operations.md R235). -/
def writeReg (v : Word) (s : State) : Reg → State
  | .cmd => accept v s
  | .status => if v.getLsbD 1 then acknowledge s else s
  | .ctrl => { s with irqEn := v.getLsbD 0 }
  | .srcLen => { s with srcLen := v }
  | .outCap => { s with outCap := v }
  | .outLen => { s with outLen := v }
  | .payloadOff => { s with payloadOff := v }
  | .leafCnt | .freq _ | .codeLen _ | .codeBits _ _ | .reserved => s

/-- `HostWrite(off, v)` at an aligned offset of the window: ignored while BUSY (43_operations.md R235). -/
def hostWrite (off : Nat) (v : Word) (s : State) : State :=
  match s.pending with
  | .idle => writeReg v s (regAt off)
  | .running _ => s

/-- The base o0 of the output of the command of word w: 0 for ENCODE and DECODE, else OUT_LEN (60_exceptions.md R266). -/
def outputBase (w : Word) (s : State) : Nat :=
  if w = 8#32 ∨ w = 9#32 then 0 else s.outLen.toNat

/-- The DST offset lies in [o0, OUT_CAP) of the running command (70_reset_and_hazards.md R295, R298). -/
def inOutput (s : State) (a : Nat) : Bool :=
  match s.pending with
  | .idle => false
  | .running w => decide (outputBase w s ≤ a) && decide (a < s.outCap.toNat)

/-- The host stores a byte in SRC. Below SRC_LEN and while BUSY this breaks its duty (70_reset_and_hazards.md R295). -/
def storeSrc (a : Nat) (v : Byte) (s : State) : State :=
  { s with
    src := Memory.write s.src a v
    srcHazard := s.srcHazard || (s.busy && decide (a < s.srcLen.toNat)) }

/-- The host stores a byte in DST. In the running command's output range this breaks its duty (70_reset_and_hazards.md R295). -/
def storeDst (a : Nat) (v : Byte) (s : State) : State :=
  { s with
    dst := Memory.write s.dst a v
    dstHazard := if inOutput s a then a :: s.dstHazard else s.dstHazard }

/-- The host loads a byte of DST. Before DONE a byte of the running command's output range may be anything
(70_reset_and_hazards.md R298). -/
def loadDst (a : Nat) (s : State) : State :=
  if inOutput s a then { s with readData := (Config.freeByte s.draws a).setWidth 32, draws := s.draws + 1 }
  else { s with readData := (dstRead s a).setWidth 32 }

/-- An access to the window, refused unless it lies inside the window and is an aligned 32-bit access (20_memory.md R75, R76;
93_implementation_defined.md items 18, 19; log entry 11). -/
def windowAccess (off size : Nat) (f : State → State) (s : State) : Host.Outcome State Fault Refusal :=
  if Config.windowBytes ≤ off then .refused (.outsideWindow off)
  else if size = 4 ∧ off % 4 = 0 then .next (f s)
  else .refused (.notAlignedWord off size)

/-- An access to SRC or DST, whose offsets are 0..2^32−1 (20_memory.md R71, R73; log entry 12). -/
def spaceAccess (a : Nat) (f : State → State) (s : State) : Host.Outcome State Fault Refusal :=
  if a < Config.spaceBytes then .next (f s) else .fault (.noSuchOffset a)

/-- One action of the host (43_operations.md R230). -/
def hostAction (e : HostAction) (s : State) : Host.Outcome State Fault Refusal :=
  match e with
  | .write off size v => windowAccess off size (hostWrite off v) s
  | .read off size => windowAccess off size (hostRead off) s
  | .storeSrc a v => spaceAccess a (storeSrc a v) s
  | .storeDst a v => spaceAccess a (storeDst a v) s
  | .loadDst a => spaceAccess a (loadDst a) s

/-- `Reset`: a running command is aborted and leaves DST[o0 .. OUT_CAP−1] unspecified (70_reset_and_hazards.md R291); the core
takes its reset values (10_state.md R50); SRC and the rest of DST are unchanged (R292). -/
def resetCore (s : State) : State :=
  let t := match s.pending with
    | .idle => s
    | .running w => unspecifyDst (outputBase w s) s.outCap.toNat s
  { State.reset with
    src := t.src
    dst := t.dst
    dstFree := t.dstFree
    draws := t.draws
    readData := t.readData
    inbox := t.inbox }

end Sys2Proof.Machine
end

