-- ==== Sys2Proof/Machine/Step.lean ====
section
/-! DEFINITION. One step of the machine: the next event of the inbox, or the core's own turn (43_operations.md R230). -/
namespace Sys2Proof.Machine

/-- The core's turn: it completes the running command, legal or illegal (43_operations.md R239, R234); idle, it does nothing
(60_exceptions.md R280). -/
def coreTurn (s : State) : Host.Outcome State Fault Refusal :=
  match s.pending with
  | .idle => .next s
  | .running w =>
    match decode w with
    | .ok i => exec i s
    | .error _ => .next (finishIllegal s)

/-- One step. With no event to come the turn is the core's, so a running command does not last for ever
(70_reset_and_hazards.md R301; log entry 1). -/
def step (s : State) : Host.Outcome State Fault Refusal :=
  match s.inbox with
  | [] => coreTurn s
  | .core :: es => coreTurn { s with inbox := es }
  | .host e :: es => hostAction e { s with inbox := es }
  | .reset :: es => .next (resetCore { s with inbox := es })

/-- s with the instruction of the opcode table's word accepted and the next turn the core's. With no event to come the turn is
the core's already. Log entry 2. -/
def State.withFetchWord (s : State) (nbits w : Nat) : State :=
  { accept (tableWord nbits w) s with
    inbox := match s.inbox with
      | [] => []
      | e :: es => .core :: e :: es }

end Sys2Proof.Machine
end

