-- ==== Sys2Proof/Safety.lean ====
section
/-! DEFINITION. The terms claims are stated in: invariants, what a command leaves unchanged, and the relations that say in the
spec's words what BUILD builds, what DST holds after a command and what a file in SRC stands for. -/
namespace Sys2Proof.Machine

/-! ### Invariants -/

/-- What every state of a run satisfies, whatever the host does. -/
structure State.Inv (s : State) : Prop where
  /-- SRC is in canonical form. -/
  srcWf : Memory.wf s.src
  /-- DST is in canonical form. -/
  dstWf : Memory.wf s.dst
  /-- No unspecified range of DST has a draw that is still to come, so no draw is used twice. -/
  drawn : ∀ r ∈ s.dstFree, r.draw < s.draws
  /-- LEAFCNT is a number from 0 to 256 (10_state.md R35). -/
  leafCnt : s.leafCnt ≤ 256
  /-- TREE is none or a well-formed tree (10_state.md R43). -/
  treeWf : ∀ t, s.tree = some t → t.wf
  /-- ERR = 1 implies DONE = 1 (10_state.md R45 (d)). -/
  errDone : s.error ≠ .none → s.done = true
  /-- While BUSY, DONE and ERRCODE are 0 and LASTOP is the running command's OP (10_state.md R47). -/
  busy : ∀ w, s.pending = .running w → s.done = false ∧ s.error = .none ∧ s.lastOp = w.extractLsb' 0 4
  /-- A hazard is noted only while a command runs (70_reset_and_hazards.md R295). -/
  calm : s.pending = .idle → s.srcHazard = false ∧ s.dstHazard = []

/-- The sum of the counts of a table. -/
def freqSum (f : Vector Word 256) : Nat := (allBytes.map fun v => (freqAt f v).toNat).sum

/-- What holds of the tables as long as the host keeps its duty towards SRC (70_reset_and_hazards.md R295). -/
structure State.TablesInv (s : State) : Prop where
  /-- TREE_VALID = 1 implies LEAFCNT = L(TREE) (10_state.md R45 (b)). -/
  leaves : ∀ t, s.tree = some t → s.leafCnt = t.leafCount
  /-- FREQ_VALID = 0 implies FREQ is all zero (10_state.md R45 (c)). -/
  noCount : s.freqValid = false → ∀ v, freqAt s.freq v = 0#32
  /-- The counts sum to at most 2^32 − 1 (10_state.md R42). -/
  sum : freqSum s.freq < 2 ^ 32
  /-- SINGLE_SYMBOL is never raised (60_exceptions.md R262). -/
  noSingle : s.error ≠ .singleSymbol

/-- The host has kept its duty since the command was accepted (70_reset_and_hazards.md R295). -/
def Undisturbed (s : State) : Prop := s.srcHazard = false ∧ s.dstHazard = []

/-! ### Completion and frames -/

/-- The completion record (43_operations.md R239, 60_exceptions.md R264): idle, DONE = 1, and ERRCODE is that of e. -/
def Completed (t : State) (e : ErrorCode) : Prop := t.pending = .idle ∧ t.done = true ∧ t.error = e

/-- What no command changes: CTRL, SRC_LEN, OUT_CAP, LASTOP and SRC, and the model's own inbox and read value. -/
def KeepsHostSide (s t : State) : Prop :=
  t.irqEn = s.irqEn ∧ t.srcLen = s.srcLen ∧ t.outCap = s.outCap ∧ t.lastOp = s.lastOp ∧ t.src = s.src ∧
    t.inbox = s.inbox ∧ t.readData = s.readData

/-- FREQ and FREQ_VALID are unchanged. -/
def KeepsFreq (s t : State) : Prop := t.freq = s.freq ∧ t.freqValid = s.freqValid

/-- FREQ, FREQ_VALID, TREE, LEAFCNT and PAYLOAD_OFF are unchanged. -/
def KeepsTables (s t : State) : Prop :=
  KeepsFreq s t ∧ t.tree = s.tree ∧ t.leafCnt = s.leafCnt ∧ t.payloadOff = s.payloadOff

/-- Every DST byte outside [lo, hi) reads as before. -/
def KeepsDstOutside (s t : State) (lo hi : Nat) : Prop :=
  ∀ a, a < lo ∨ hi ≤ a → dstRead t a = dstRead s a

/-- OUT_LEN and every DST byte are unchanged (class U of 60_exceptions.md R266). -/
def KeepsOutput (s t : State) : Prop := t.outLen = s.outLen ∧ ∀ a, dstRead t a = dstRead s a

/-- The offset a command's output starts at: 0 for ENCODE and DECODE, else OUT_LEN (60_exceptions.md R266). -/
def outputStart (i : Instr) (s : State) : Nat :=
  match i with
  | .encode | .decode => 0
  | .clear | .count | .build | .serialize | .deserialize | .encodePayload | .decodePayload => s.outLen.toNat

/-- A host action inside the spec's interface: an aligned 32-bit access to the window (20_memory.md R75), or a byte access
at an offset of the space (R71, R73). -/
def LegalAction : HostAction → Prop
  | .write off size _ | .read off size => off < Config.windowBytes ∧ size = 4 ∧ off % 4 = 0
  | .storeSrc a _ | .storeDst a _ | .loadDst a => a < Config.spaceBytes

/-! ### Counting and building -/

/-- f holds the number of times each byte value stands in SRC[0..SRC_LEN−1] (40_tree.md R141). -/
def CountsSource (s : State) (f : Vector Word 256) : Prop :=
  ∀ v, (freqAt f v).toNat = ((List.range s.srcLen.toNat).filter fun a => decide (srcRead s a = v)).length

/-- The number of byte values a table gives a positive count (40_tree.md R141, R147). -/
def presentValues (f : Vector Word 256) : Nat :=
  ((List.range 256).filter fun k => decide (freqAt f (BitVec.ofNat 8 k) ≠ 0#32)).length

/-- The strict order of the queue on (cnt, seq) (40_tree.md R143). -/
def Precedes (a b : Entry) : Prop := a.cnt < b.cnt ∨ (a.cnt = b.cnt ∧ a.seq < b.seq)

/-- q is BUILD's queue before the first merge: entry k is the leaf of the k-th smallest value with a positive count, with that
count and seq k (40_tree.md R144). -/
def StartsQueue (f : Vector Word 256) (q : List Entry) : Prop :=
  ∃ syms : List Byte, syms.Pairwise (fun u v => u.toNat < v.toNat) ∧ (∀ v, v ∈ syms ↔ freqAt f v ≠ 0#32) ∧
    q.length = syms.length ∧ ∀ k v, syms[k]? = some v → q[k]? = some (Entry.mk (freqAt f v).toNat k (.leaf v))

/-- BUILD's loop from a queue ends with the tree t: the two entries that precede all others are merged, the first of them on the
left, into an entry with the next sequence number, until one entry is left (40_tree.md R143 to R147). -/
inductive MergesTo : Nat → List Entry → CodeTree → Prop where
  | root (next : Nat) (e : Entry) : MergesTo next [e] e.tree
  | merge {next : Nat} {q rest : List Entry} {a b : Entry} {t : CodeTree}
      (split : q.Perm (a :: b :: rest))
      (first : ∀ e ∈ b :: rest, Precedes a e)
      (second : ∀ e ∈ rest, Precedes b e)
      (more : MergesTo (next + 1) (Entry.mk (a.cnt + b.cnt) next (.node a.tree b.tree) :: rest) t) : MergesTo next q t

/-- t is the tree BUILD makes from the table f. -/
def BuildsFrom (f : Vector Word 256) (t : CodeTree) : Prop := ∃ q, StartsQueue f q ∧ MergesTo q.length q t

/-- The number of internal nodes of a tree. -/
def CodeTree.internalNodes : CodeTree → Nat
  | .leaf _ => 0
  | .node l r => l.internalNodes + r.internalNodes + 1

/-! ### What DST holds -/

/-- DST holds the bytes of out from offset o on. -/
def HoldsBytes (t : State) (o : Nat) (out : List Byte) : Prop :=
  ∀ k v, out[k]? = some v → dstRead t (o + k) = v

/-- DST holds at o the leaf count byte of a tree, and after it the header: stream bit i is bit i of hdr(tr), or 0 past its end
(30_encoding.md R110, R112 to R115). -/
def HoldsHeader (t : State) (o : Nat) (tr : CodeTree) : Prop :=
  (dstRead t o).toNat = tr.leafCount % 256 ∧
    ∀ i, i < 8 * hdrBytes tr.leafCount →
      streamBit (fun j => dstRead t (o + 1 + j)) i = (hdr tr).getD i false

/-- DST holds at o the payload of the bit string P: bit j is P[j] below N = |P|, 1 at N and 0 above, in ceil(N/8) bytes; then the
trailer (8 − N mod 8) mod 8 (42_bitstream.md R202, R203). -/
def HoldsPayload (t : State) (o : Nat) (P : Bits) : Prop :=
  let nb := divCeil P.length 8
  (∀ j, j < 8 * nb → streamBit (fun k => dstRead t (o + k)) j = (P.getD j (decide (j = P.length)))) ∧
    (dstRead t (o + nb)).toNat = (8 - P.length % 8) % 8

/-! ### What a file in SRC stands for -/

/-- SRC begins with the leaf count byte and the header of the well-formed tree tr, and is long enough for them
(30_encoding.md R112, R113, 41_header.md R180, R181, R185). -/
def SourceHeader (s : State) (tr : CodeTree) : Prop :=
  tr.wf ∧ (srcRead s 0).toNat = tr.leafCount % 256 ∧ 1 + hdrBytes tr.leafCount ≤ s.srcLen.toNat ∧
    (List.range (10 * tr.leafCount - 1)).map (hbit s) = hdr tr

/-- The trailer of the payload in SRC (42_bitstream.md R210). -/
def sourceTrailer (s : State) : Nat := (srcRead s (s.srcLen.toNat - 1)).toNat

/-- SRC holds from offset off on, up to the trailer, a payload whose content bits are the codes of out under the tree tr
(42_bitstream.md R210 to R214). -/
def SourcePayload (s : State) (off : Nat) (tr : CodeTree) (out : List Byte) : Prop :=
  off + 2 ≤ s.srcLen.toNat ∧ sourceTrailer s ≤ 8 ∧ (∀ v ∈ out, v ∈ tr.leaves) ∧
    (List.range (8 * (s.srcLen.toNat - off - 1) - sourceTrailer s)).map
      (streamBit fun k => srcRead s (off + k)) = out.flatMap (codes tr)

/-- SRC[0..SRC_LEN−1] holds the bytes x. -/
def SourceIs (s : State) (x : List Byte) : Prop :=
  s.srcLen.toNat = x.length ∧ ∀ a v, x[a]? = some v → srcRead s a = v

end Sys2Proof.Machine
end

