-- ==== Sys2Proof/Certificates/Slice0/Obligations.lean ====
section
/-! DEFINITION. The statements for the provers. Each docstring names the rules of spec/ it formalises. Where a statement needs the
host to have kept its duty of 70_reset_and_hazards.md R295, it says `Undisturbed`; DisturbedSourceSpoilsOnlyResults and
DisturbedOutputSpoilsOnlyThoseBytes cover the other states. -/

open Sys2Proof Sys2Proof.Machine

/-! ### Encodings -/

/-- Decode and encode agree (30_encoding.md section 2). -/
def Obligations.EncodeThenDecodeIsIdentity : Prop :=
  ∀ i : Instr, i.wellFormed = true → Sys2Proof.decode (Sys2Proof.encode i) = .ok i

/-- 30_encoding.md R102: the full 32-bit word is matched against the nine words of the opcode map. -/
def Obligations.DecodeMatchesTheOpcodeMap : Prop :=
  ∀ (w : Word) (i : Instr), Sys2Proof.decode w = .ok i ↔
    (w, i) ∈ [(0x00000001#32, Instr.clear), (0x00000002#32, .count), (0x00000003#32, .build),
      (0x00000004#32, .serialize), (0x00000005#32, .deserialize), (0x00000006#32, .encodePayload),
      (0x00000007#32, .decodePayload), (0x00000008#32, .encode), (0x00000009#32, .decode)]

/-- 30_encoding.md R104, first sentence: which words are illegal. -/
def Obligations.IllegalWordsAreRejected : Prop :=
  ∀ w : Word, (∃ e, Sys2Proof.decode w = .error e) ↔
    (w.extractLsb' 4 28 ≠ 0#28 ∨ w.extractLsb' 0 4 = 0#4 ∨ 10 ≤ (w.extractLsb' 0 4).toNat)

/-- Words written out from 30_encoding.md R100, R102 and R104 decode as they say. -/
def Obligations.TableWordsDecode : Prop :=
  decodeTableWord 32 0b00000000000000000000000000000010 = some .count ∧
  decodeTableWord 32 0b00000000000000000000000000000101 = some .deserialize ∧
  decodeTableWord 32 0b00000000000000000000000000000110 = some .encodePayload ∧
  decodeTableWord 32 0b00000000000000000000000000001001 = some .decode ∧
  decodeTableWord 32 0b00000000000000000000000000010010 = none ∧
  decodeTableWord 32 0b00000000000000000000000000001010 = none

/-- 43_operations.md R234: an accepted illegal word completes with ILLEGAL_COMMAND (code 6), and nothing else changes. -/
def Obligations.IllegalWordCompletesWithItsCode : Prop :=
  ErrorCode.illegalCommand.bits = 6#4 ∧
  ∀ (s : State) (w : Word), s.inbox = [] →
    w.extractLsb' 4 28 ≠ 0#28 ∨ w.extractLsb' 0 4 = 0#4 ∨ 10 ≤ (w.extractLsb' 0 4).toNat →
    Machine.step (accept w s) = .next { s with
      pending := .idle, done := true, error := .illegalCommand, lastOp := w.extractLsb' 0 4,
      srcHazard := false, dstHazard := [] }

/-! ### Reset -/

/-- 10_state.md R50: the value of every piece of core state after reset; SRC is not changed, nor is DST where the core was
idle. -/
def Obligations.ResetLeavesTheSpecValues : Prop :=
  ∀ s : State, let t := resetCore s
    (t.pending = .idle ∧ statusWord t = 0#32 ∧ t.irq = false ∧ regValue t .ctrl = 0#32) ∧
    (t.srcLen = 0#32 ∧ t.outCap = 0#32 ∧ t.outLen = 0#32 ∧ t.payloadOff = 0#32 ∧ regValue t .leafCnt = 0#32) ∧
    (∀ v w, freqAt t.freq v = 0#32 ∧ t.tree = none ∧ regValue t (.codeLen v) = 0#32 ∧
      regValue t (.codeBits v w) = 0#32) ∧
    (∀ a, srcRead t a = srcRead s a) ∧ (s.pending = .idle → ∀ a, dstRead t a = dstRead s a)

/-- 70_reset_and_hazards.md R291: reset aborts a running command without completing it; DST outside [o0, OUT_CAP) is
unchanged. -/
def Obligations.ResetAbortsTheRunningCommand : Prop :=
  ∀ (s : State) (w : Word), s.pending = .running w → let t := resetCore s
    t.pending = .idle ∧ t.done = false ∧ t.error = .none ∧ t.lastOp = 0#4 ∧
      (∀ v, freqAt t.freq v = 0#32) ∧ t.freqValid = false ∧ t.tree = none ∧ t.leafCnt = 0 ∧
      KeepsDstOutside s t (if w = 0x8#32 ∨ w = 0x9#32 then 0 else s.outLen.toNat) s.outCap.toNat

/-! ### Steps -/

/-- A step runs the decoded command (43_operations.md R239): with no event to come, or at a turn of the core, the step from a
running legal word is `exec` of its command; and `withFetchWord` accepts the word and makes the next turn the core's. -/
def Obligations.StepRunsTheDecodedCommand : Prop :=
  (∀ (s : State) (w : Word) (i : Instr), s.pending = .running w → Sys2Proof.decode w = .ok i →
    (s.inbox = [] → Machine.step s = exec i s) ∧
    (∀ es, s.inbox = .core :: es → Machine.step s = exec i { s with inbox := es })) ∧
  ∀ (s : State) (i : Instr),
    Machine.step (s.withFetchWord 32 (Sys2Proof.encode i).toNat) = exec i (accept (Sys2Proof.encode i) s)

/-- The other events (43_operations.md R230): the step takes the first event of the inbox. That the events stand in a list is the
model's choice (log entry 1). -/
def Obligations.StepTakesTheNextEvent : Prop :=
  ∀ (s : State) (es : List Event),
    (∀ e, s.inbox = .host e :: es → Machine.step s = hostAction e { s with inbox := es }) ∧
    (s.inbox = .reset :: es → Machine.step s = .next (resetCore { s with inbox := es }))

/-- 60_exceptions.md R280: an idle core does nothing until a CMD write. -/
def Obligations.IdleCoreDoesNothing : Prop :=
  ∀ s : State, s.pending = .idle →
    (s.inbox = [] → Machine.step s = .next s) ∧
    (∀ es, s.inbox = .core :: es → Machine.step s = .next { s with inbox := es })

/-! ### The register window -/

/-- 43_operations.md R235 and R237: what an aligned 32-bit write does to each register. -/
def Obligations.HostWriteRules : Prop :=
  ∀ (s : State) (v : Word),
    (∀ (w : Word) (off : Nat), s.pending = .running w → off < 0x4000 → off % 4 = 0 →
      hostAction (.write off 4 v) s = .next s) ∧
    (s.pending = .idle →
      hostAction (.write 0x000 4 v) s = .next { s with
        pending := .running v, done := false, error := .none, lastOp := v.extractLsb' 0 4,
        srcHazard := false, dstHazard := [] } ∧
      hostAction (.write 0x004 4 v) s =
        .next (if v.getLsbD 1 = true then { s with done := false, error := .none } else s) ∧
      hostAction (.write 0x008 4 v) s = .next { s with irqEn := v.getLsbD 0 } ∧
      hostAction (.write 0x00C 4 v) s = .next { s with srcLen := v } ∧
      hostAction (.write 0x010 4 v) s = .next { s with outCap := v } ∧
      hostAction (.write 0x014 4 v) s = .next { s with outLen := v } ∧
      hostAction (.write 0x018 4 v) s = .next { s with payloadOff := v } ∧
      ∀ off, 0x01C ≤ off → off < 0x4000 → off % 4 = 0 → hostAction (.write off 4 v) s = .next s)

/-- 70_reset_and_hazards.md R296 and 10_state.md R48: no host action changes the operands of a running command, nor ends it. -/
def Obligations.RunningCommandKeepsItsOperands : Prop :=
  ∀ (s t : State) (w : Word) (e : HostAction), s.pending = .running w → hostAction e s = .next t →
    t.pending = .running w ∧ t.srcLen = s.srcLen ∧ t.outCap = s.outCap ∧ t.outLen = s.outLen ∧
      t.payloadOff = s.payloadOff ∧ t.irqEn = s.irqEn ∧ t.done = s.done ∧ t.error = s.error ∧ t.lastOp = s.lastOp

/-- 43_operations.md R236 with 10_state.md R22 to R37: what an aligned 32-bit read returns while the core is idle, and that it
changes nothing but the value returned. CODEBITS is in CodeBitsReadTheCode. -/
def Obligations.HostReadRules : Prop :=
  ∀ s : State, s.pending = .idle →
    (∀ off, off < 0x4000 → off % 4 = 0 →
      ∃ r, hostAction (.read off 4) s = .next { s with readData := r }) ∧
    (∀ t, hostAction (.read 0x000 4) s = .next t → t.readData = 0#32) ∧
    (∀ t, hostAction (.read 0x004 4) s = .next t → t.readData.toNat =
      2 * s.done.toNat + 4 * (decide (s.error ≠ .none)).toNat + 16 * s.error.bits.toNat + 256 * s.lastOp.toNat +
        4096 * s.freqValid.toNat + 8192 * s.tree.isSome.toNat + 16384 * (s.done && s.irqEn).toNat) ∧
    (∀ t, hostAction (.read 0x008 4) s = .next t → t.readData.toNat = s.irqEn.toNat) ∧
    (∀ t, hostAction (.read 0x00C 4) s = .next t → t.readData = s.srcLen) ∧
    (∀ t, hostAction (.read 0x010 4) s = .next t → t.readData = s.outCap) ∧
    (∀ t, hostAction (.read 0x014 4) s = .next t → t.readData = s.outLen) ∧
    (∀ t, hostAction (.read 0x018 4) s = .next t → t.readData = s.payloadOff) ∧
    (∀ t, s.leafCnt ≤ 256 → hostAction (.read 0x01C 4) s = .next t → t.readData.toNat = s.leafCnt) ∧
    (∀ t (v : Byte), hostAction (.read (0x400 + 4 * v.toNat) 4) s = .next t → t.readData = freqAt s.freq v) ∧
    (∀ t (v : Byte), (codeOf s.tree v).length ≤ 255 → hostAction (.read (0x800 + 4 * v.toNat) 4) s = .next t →
      t.readData.toNat = (codeOf s.tree v).length)

/-- 10_state.md R38: bit k of CODEBITS[v][w] is code bit 32·w + k of v, or 0 past the end of the code. -/
def Obligations.CodeBitsReadTheCode : Prop :=
  ∀ (s : State) (v : Byte) (w : Nat), s.pending = .idle → w < 8 →
    ∃ r, hostAction (.read (0x1000 + 32 * v.toNat + 4 * w) 4) s = .next { s with readData := r } ∧
      ∀ k, k < 32 → r.getLsbD k = (codeOf s.tree v).getD (32 * w + k) false

/-- 10_state.md R47: what a host read returns while a command runs. Of a register whose value is unspecified it says only that
the read changes nothing else. -/
def Obligations.BusyReadRules : Prop :=
  ∀ (s : State) (w : Word), s.pending = .running w →
    (∀ off, off < 0x4000 → off % 4 = 0 →
      ∃ r d, hostAction (.read off 4) s = .next { s with readData := r, draws := d }) ∧
    (∀ t, hostAction (.read 0x000 4) s = .next t → t.readData = 0#32) ∧
    (∀ t, hostAction (.read 0x004 4) s = .next t →
      t.readData.extractLsb' 0 8 = 0x01#8 ∧ t.readData.extractLsb' 8 4 = w.extractLsb' 0 4 ∧
        t.readData.extractLsb' 14 18 = 0#18) ∧
    (∀ t, hostAction (.read 0x008 4) s = .next t → t.readData.toNat = s.irqEn.toNat) ∧
    (∀ t, hostAction (.read 0x00C 4) s = .next t → t.readData = s.srcLen) ∧
    (∀ t, hostAction (.read 0x010 4) s = .next t → t.readData = s.outCap)

/-- 10_state.md R39: a reserved offset reads 0 and ignores writes, and neither has a side effect; an offset outside the window
is not the core's, and the model refuses it (93_implementation_defined.md item 19). `draws` is the model's own counter. -/
def Obligations.ReservedOffsetsReadZero : Prop :=
  (∀ (s : State) (off : Nat) (v : Word), off % 4 = 0 →
    (0x020 ≤ off ∧ off ≤ 0x3FC) ∨ (0xC00 ≤ off ∧ off ≤ 0xFFC) ∨ (0x3000 ≤ off ∧ off ≤ 0x3FFC) →
    (∃ d, hostAction (.read off 4) s = .next { s with readData := 0#32, draws := d }) ∧
      hostAction (.write off 4 v) s = .next s) ∧
  ∀ (s : State) (off size : Nat) (v : Word), 0x4000 ≤ off →
    hostAction (.read off size) s = .refused (.outsideWindow off) ∧
      hostAction (.write off size v) s = .refused (.outsideWindow off)

/-- 20_memory.md R76: an access to the window that is not an aligned 32-bit access is refused, and no step is taken. -/
def Obligations.UnalignedAccessesAreRefused : Prop :=
  ∀ (s : State) (off size : Nat) (v : Word), off < 0x4000 → size ≠ 4 ∨ off % 4 ≠ 0 →
    hostAction (.read off size) s = .refused (.notAlignedWord off size) ∧
      hostAction (.write off size v) s = .refused (.notAlignedWord off size)

/-- 20_memory.md R71 and R73: SRC and DST have offsets 0..2^32−1. That an access outside them is a fault is the model's choice
(log entry 12). A byte the host stores reads back, and no other byte of that memory changes. -/
def Obligations.HostStoresReachOneByte : Prop :=
  ∀ (s : State) (a : Nat) (v : Byte),
    (2 ^ 32 ≤ a → hostAction (.storeSrc a v) s = .fault (.noSuchOffset a) ∧
      hostAction (.storeDst a v) s = .fault (.noSuchOffset a) ∧ hostAction (.loadDst a) s = .fault (.noSuchOffset a)) ∧
    (a < 2 ^ 32 →
      (∃ t, hostAction (.storeSrc a v) s = .next t ∧ (∀ b, srcRead t b = if b = a then v else srcRead s b) ∧
        ∀ b, dstRead t b = dstRead s b) ∧
      (∃ t, hostAction (.storeDst a v) s = .next t ∧ (∀ b, dstRead t b = if b = a then v else dstRead s b) ∧
        ∀ b, srcRead t b = srcRead s b) ∧
      (s.pending = .idle → hostAction (.loadDst a) s = .next { s with readData := (dstRead s a).setWidth 32 }))

/-- 43_operations.md R239 ("Complete is the only event that changes the tables and DST", reset apart) and 20_memory.md R82: no
host action changes FREQ, TREE, their flags or LEAFCNT, nor a byte of SRC or DST but one it stores to. -/
def Obligations.HostActionsLeaveTheTables : Prop :=
  ∀ (e : HostAction) (s t : State), hostAction e s = .next t →
    KeepsFreq s t ∧ t.tree = s.tree ∧ t.leafCnt = s.leafCnt ∧
      (∀ a, (∀ v, e ≠ .storeDst a v) → dstRead t a = dstRead s a) ∧
      (∀ a, (∀ v, e ≠ .storeSrc a v) → srcRead t a = srcRead s a)

/-- 60_exceptions.md R270 and R271: the level of the interrupt output, where STATUS shows it, and what raises and lowers it. -/
def Obligations.InterruptFollowsDoneAndEnable : Prop :=
  (∀ s : State, s.irq = (s.done && s.irqEn) ∧ (statusWord s).getLsbD 14 = s.irq) ∧
  (∀ (i : Instr) (s t : State), exec i s = .next t → t.irq = s.irqEn) ∧
  (∀ s : State, (finishIllegal s).irq = s.irqEn ∧ (resetCore s).irq = false) ∧
  ∀ (s t : State) (v : Word), s.pending = .idle →
    (hostAction (.write 0x008 4 v) s = .next t → t.irq = (s.done && v.getLsbD 0) ∧ t.done = s.done) ∧
    (hostAction (.write 0x004 4 v) s = .next t → v.getLsbD 1 = true → t.irq = false) ∧
    (hostAction (.write 0x000 4 v) s = .next t → t.irq = false)

/-- 60_exceptions.md R260 and R263: the error code numbers, none of them above 8. -/
def Obligations.ErrorCodeNumbers : Prop :=
  [ErrorCode.none, .ioError, .corruptHeader, .corruptPayload, .singleSymbol, .emptySource, .illegalCommand,
      .sequenceError, .symbolNotInTree].map (fun e => e.bits.toNat) = [0, 1, 2, 3, 4, 5, 6, 7, 8] ∧
    ∀ e : ErrorCode, e.bits.toNat ≤ 8

/-! ### CLEAR, COUNT and BUILD -/

/-- 43_operations.md R233: CLEAR returns the tables, LEAFCNT, OUT_LEN and PAYLOAD_OFF to 0 and touches nothing else. -/
def Obligations.ClearEmptiesTheTables : Prop :=
  ∀ s : State, Undisturbed s → ∃ t, exec .clear s = .next t ∧ Completed t .none ∧
    (∀ v, freqAt t.freq v = 0#32) ∧ t.freqValid = false ∧ t.tree = none ∧ t.leafCnt = 0 ∧ t.outLen = 0#32 ∧
    t.payloadOff = 0#32 ∧ KeepsHostSide s t ∧ ∀ a, dstRead t a = dstRead s a

/-- 40_tree.md R141: COUNT. -/
def Obligations.CountCountsTheSource : Prop :=
  ∀ s : State, Undisturbed s → ∃ t, exec .count s = .next t ∧ Completed t .none ∧
    CountsSource s t.freq ∧ t.leafCnt = presentValues t.freq ∧ t.freqValid = true ∧ t.tree = none ∧
    t.payloadOff = s.payloadOff ∧ KeepsOutput s t ∧ KeepsHostSide s t

/-- 10_state.md R42: after COUNT the counts sum to SRC_LEN. -/
def Obligations.CountsSumToSourceLength : Prop :=
  ∀ s t : State, Undisturbed s → exec .count s = .next t → freqSum t.freq = s.srcLen.toNat

/-- 40_tree.md R147 with R143 to R146: BUILD of a table with a positive entry. -/
def Obligations.BuildMergesTheLeast : Prop :=
  ∀ s : State, Undisturbed s → s.freqValid = true → (∃ v, freqAt s.freq v ≠ 0#32) →
    ∃ t tr, exec .build s = .next t ∧ Completed t .none ∧ BuildsFrom s.freq tr ∧ t.tree = some tr ∧
      t.leafCnt = presentValues s.freq ∧ KeepsFreq s t ∧ t.payloadOff = s.payloadOff ∧ KeepsOutput s t ∧
      KeepsHostSide s t

/-- 40_tree.md R147 and 60_exceptions.md R265, R268: the errors of BUILD. -/
def Obligations.BuildErrors : Prop :=
  ∀ s : State, Undisturbed s → s.freqValid = false ∨ (∀ v, freqAt s.freq v = 0#32) →
    ∃ t, exec .build s = .next t ∧
      Completed t (if s.freqValid = false then .sequenceError else .emptySource) ∧ t.tree = none ∧
      KeepsFreq s t ∧ t.leafCnt = s.leafCnt ∧ t.payloadOff = s.payloadOff ∧ KeepsOutput s t ∧ KeepsHostSide s t

/-- 40_tree.md R149 (a), (c): the tree of a table has exactly one leaf for each byte value with a positive count, one internal
node fewer, and for two leaves or more every code is 1 to L − 1 bits long. -/
def Obligations.BuiltTreeHasOneLeafPerValue : Prop :=
  ∀ f : Vector Word 256, presentValues f ≠ 0 → ∃ tr, buildTree f = some tr ∧ tr.leaves.Nodup ∧
    (∀ v, v ∈ tr.leaves ↔ freqAt f v ≠ 0#32) ∧ tr.leafCount = presentValues f ∧
    tr.internalNodes + 1 = tr.leafCount ∧
    (2 ≤ tr.leafCount → ∀ v ∈ tr.leaves, 1 ≤ (codes tr v).length ∧ (codes tr v).length ≤ tr.leafCount - 1)

/-! ### Codes and headers -/

/-- 40_tree.md R152: the codes of a well-formed tree are prefix-free. -/
def Obligations.CodesArePrefixFree : Prop :=
  ∀ (tr : CodeTree) (u v : Byte), tr.wf → u ∈ tr.leaves → v ∈ tr.leaves → u ≠ v → ¬ codes tr u <+: codes tr v

/-- 10_state.md R37, R44 and R45 (b): a leaf value has a code of 1 to 255 bits, and every other value has none. -/
def Obligations.CodesBelongToTheLeaves : Prop :=
  ∀ (tr : CodeTree) (v : Byte), tr.wf →
    (v ∈ tr.leaves → 1 ≤ (codes tr v).length ∧ (codes tr v).length ≤ 255) ∧ (v ∉ tr.leaves → codes tr v = [])

/-- 41_header.md R173: the header length law. -/
def Obligations.HeaderLengthLaw : Prop :=
  ∀ tr : CodeTree, (hdr tr).length = 10 * tr.leafCount - 1

/-- 41_header.md R172: the serializer's loop over an explicit stack gives the header string of R171. -/
def Obligations.StackSerializerGivesTheHeader : Prop :=
  ∀ tr : CodeTree, hdrByStack (tr.leafCount + tr.internalNodes) [tr] = hdr tr

/-! ### SERIALIZE and DESERIALIZE -/

/-- 41_header.md R175: SERIALIZE of a tree whose header fits. -/
def Obligations.SerializeWritesTheHeader : Prop :=
  ∀ (s : State) (tr : CodeTree), Undisturbed s → s.tree = some tr →
    s.outLen.toNat + 1 + hdrBytes tr.leafCount ≤ s.outCap.toNat →
    ∃ t, exec .serialize s = .next t ∧ Completed t .none ∧ HoldsHeader t s.outLen.toNat tr ∧
      t.outLen.toNat = s.outLen.toNat + 1 + hdrBytes tr.leafCount ∧
      KeepsDstOutside s t s.outLen.toNat (s.outLen.toNat + 1 + hdrBytes tr.leafCount) ∧
      KeepsTables s t ∧ KeepsHostSide s t

/-- 41_header.md R175 and 60_exceptions.md R266, R268: the errors of SERIALIZE. OUT_LEN is free after IO_ERROR, so nothing is
said of it there. -/
def Obligations.SerializeErrors : Prop :=
  (∀ s : State, Undisturbed s → s.tree = none → ∃ t, exec .serialize s = .next t ∧ Completed t .sequenceError ∧
    KeepsTables s t ∧ KeepsOutput s t ∧ KeepsHostSide s t) ∧
  ∀ (s : State) (tr : CodeTree), Undisturbed s → s.tree = some tr →
    s.outCap.toNat < s.outLen.toNat + 1 + hdrBytes tr.leafCount →
    ∃ t, exec .serialize s = .next t ∧ Completed t .ioError ∧ KeepsTables s t ∧
      KeepsDstOutside s t s.outLen.toNat s.outCap.toNat ∧ KeepsHostSide s t

/-- 41_header.md R187: DESERIALIZE of a file that begins with the leaf count byte and header of a well-formed tree. -/
def Obligations.DeserializeInstallsTheTree : Prop :=
  ∀ (s : State) (tr : CodeTree), Undisturbed s → SourceHeader s tr →
    ∃ t, exec .deserialize s = .next t ∧ Completed t .none ∧ t.tree = some tr ∧ t.leafCnt = tr.leafCount ∧
      t.payloadOff.toNat = 1 + hdrBytes tr.leafCount ∧ KeepsFreq s t ∧ KeepsOutput s t ∧ KeepsHostSide s t

/-- 41_header.md R180, R182, R184 and R187: every other file is CORRUPT_HEADER. -/
def Obligations.DeserializeRejectsTheRest : Prop :=
  ∀ s : State, Undisturbed s → (∀ tr, ¬ SourceHeader s tr) →
    ∃ t, exec .deserialize s = .next t ∧ Completed t .corruptHeader ∧ t.tree = none ∧ t.leafCnt = s.leafCnt ∧
      t.payloadOff = s.payloadOff ∧ KeepsFreq s t ∧ KeepsOutput s t ∧ KeepsHostSide s t

/-- 41_header.md R185: a DESERIALIZE that raises nothing leaves a well-formed tree of L leaves and L − 1 internal nodes whose
header is the bits read; and DESERIALIZE of what SERIALIZE wrote gives the tree back. -/
def Obligations.DeserializeInvertsSerialize : Prop :=
  (∀ s t : State, Undisturbed s → exec .deserialize s = .next t → t.error = .none →
    ∃ tr, t.tree = some tr ∧ tr.wf ∧ tr.leafCount = leafCountOf (srcRead s 0) ∧ tr.internalNodes + 1 = tr.leafCount ∧
      hdr tr = (List.range (10 * tr.leafCount - 1)).map (hbit s)) ∧
  ∀ (s t u : State) (tr : CodeTree), Undisturbed s → Undisturbed u → s.tree = some tr → tr.wf →
    exec .serialize s = .next t → t.error = .none → t.outLen.toNat - s.outLen.toNat ≤ u.srcLen.toNat →
    (∀ k, k < t.outLen.toNat - s.outLen.toNat → srcRead u k = dstRead t (s.outLen.toNat + k)) →
    ∃ v, exec .deserialize u = .next v ∧ Completed v .none ∧ v.tree = some tr

/-- 41_header.md R188 (and R181): DESERIALIZE reads no header padding bit and no byte after the header. Two sources with the same
leaf count byte and the same header bits below 10·L − 1 give the same result. -/
def Obligations.HeaderPaddingIsIgnored : Prop :=
  ∀ (s t : State) (m : List Host.Cell), srcRead { s with src := m } 0 = srcRead s 0 →
    (∀ i, i < 10 * leafCountOf (srcRead s 0) - 1 → hbit { s with src := m } i = hbit s i) →
    exec .deserialize s = .next t → exec .deserialize { s with src := m } = .next { t with src := m }

/-- 41_header.md R184: with checks (a) and (b) in place, checks (c) and (e) never fire. `n` passes of the loop from its start
reach p. -/
def Obligations.ChecksCAndENeverFire : Prop :=
  ∀ (bit : Nat → Bool) (L n : Nat) (p : Parse), 1 ≤ L →
    parseLoop bit L (10 * L - 1) n ⟨.hole, 0, 0, []⟩ = some p →
    (p.i < 10 * L - 1 → bit p.i = true → (∃ r, p.root.fill (.leaf 0#8) = some r) → p.i + 9 ≤ 10 * L - 1) ∧
    (10 * L - 1 ≤ p.i → ∃ tr, p.root.complete = some tr)

/-! ### ENCODE_PAYLOAD and DECODE_PAYLOAD -/

/-- 42_bitstream.md R204 with R201 to R203: ENCODE_PAYLOAD of a source whose bytes all have codes and whose output fits. -/
def Obligations.EncodePayloadWritesThePayload : Prop :=
  ∀ (s : State) (tr : CodeTree), Undisturbed s → s.tree = some tr → s.srcLen ≠ 0#32 →
    (∀ a, a < s.srcLen.toNat → codes tr (srcRead s a) ≠ []) →
    let P := ((List.range s.srcLen.toNat).map (srcRead s)).flatMap (codes tr)
    let n := divCeil P.length 8 + 1
    s.outLen.toNat + n ≤ s.outCap.toNat →
    ∃ t, exec .encodePayload s = .next t ∧ Completed t .none ∧ HoldsPayload t s.outLen.toNat P ∧
      t.outLen.toNat = s.outLen.toNat + n ∧ KeepsDstOutside s t s.outLen.toNat (s.outLen.toNat + n) ∧
      KeepsTables s t ∧ KeepsHostSide s t

/-- 42_bitstream.md R204 and 60_exceptions.md R266, R268: the errors of ENCODE_PAYLOAD, in their order. OUT_LEN is free after
IO_ERROR. -/
def Obligations.EncodePayloadErrors : Prop :=
  (∀ (s : State) (e : ErrorCode), Undisturbed s →
    (s.tree = none ∧ e = .sequenceError) ∨
      (s.tree.isSome = true ∧ s.srcLen = 0#32 ∧ e = .emptySource) ∨
      (∃ tr a, s.tree = some tr ∧ a < s.srcLen.toNat ∧ codes tr (srcRead s a) = [] ∧ e = .symbolNotInTree) →
    ∃ t, exec .encodePayload s = .next t ∧ Completed t e ∧ KeepsTables s t ∧ KeepsOutput s t ∧ KeepsHostSide s t) ∧
  ∀ (s : State) (tr : CodeTree), Undisturbed s → s.tree = some tr → s.srcLen ≠ 0#32 →
    (∀ a, a < s.srcLen.toNat → codes tr (srcRead s a) ≠ []) →
    s.outCap.toNat < s.outLen.toNat +
      (divCeil (((List.range s.srcLen.toNat).map (srcRead s)).flatMap (codes tr)).length 8 + 1) →
    ∃ t, exec .encodePayload s = .next t ∧ Completed t .ioError ∧ KeepsTables s t ∧
      KeepsDstOutside s t s.outLen.toNat s.outCap.toNat ∧ KeepsHostSide s t

/-- 42_bitstream.md R215 with R210 to R213: DECODE_PAYLOAD of a payload whose content bits are the codes of out. -/
def Obligations.DecodePayloadEmitsTheBytes : Prop :=
  ∀ (s : State) (tr : CodeTree) (out : List Byte), Undisturbed s → s.tree = some tr → tr.wf →
    SourcePayload s s.payloadOff.toNat tr out → s.outLen.toNat + out.length ≤ s.outCap.toNat →
    ∃ t, exec .decodePayload s = .next t ∧ Completed t .none ∧ HoldsBytes t s.outLen.toNat out ∧
      t.outLen.toNat = s.outLen.toNat + out.length ∧
      KeepsDstOutside s t s.outLen.toNat (s.outLen.toNat + out.length) ∧ KeepsTables s t ∧ KeepsHostSide s t

/-- 42_bitstream.md R210 to R215 and 60_exceptions.md R266, R268: the errors of DECODE_PAYLOAD, in their order. OUT_LEN is free
after IO_ERROR and CORRUPT_PAYLOAD. -/
def Obligations.DecodePayloadErrors : Prop :=
  (∀ s : State, Undisturbed s → s.tree = none → ∃ t, exec .decodePayload s = .next t ∧ Completed t .sequenceError ∧
    KeepsTables s t ∧ KeepsOutput s t ∧ KeepsHostSide s t) ∧
  (∀ (s : State) (tr : CodeTree) (e : ErrorCode), Undisturbed s → s.tree = some tr → tr.wf →
    ((∀ out, ¬ SourcePayload s s.payloadOff.toNat tr out) ∧ e = .corruptPayload) ∨
      (∃ out, SourcePayload s s.payloadOff.toNat tr out ∧ s.outCap.toNat < s.outLen.toNat + out.length ∧ e = .ioError) →
    ∃ t, exec .decodePayload s = .next t ∧ Completed t e ∧ KeepsTables s t ∧
      KeepsDstOutside s t s.outLen.toNat s.outCap.toNat ∧ KeepsHostSide s t)

/-- 42_bitstream.md R216: DECODE_PAYLOAD reads no payload bit at an index M or above: the marker and the padding do not matter.
Two sources with the same trailer and the same content bits below M give the same result. -/
def Obligations.MarkerIsIgnored : Prop :=
  ∀ (s t : State) (m : List Host.Cell), sourceTrailer { s with src := m } = sourceTrailer s →
    (∀ j, j < 8 * (s.srcLen.toNat - s.payloadOff.toNat - 1) - sourceTrailer s → cbit { s with src := m } j = cbit s j) →
    exec .decodePayload s = .next t → exec .decodePayload { s with src := m } = .next { t with src := m }

/-- 42_bitstream.md R218: the payload round trip. -/
def Obligations.PayloadRoundTrip : Prop :=
  ∀ (tr : CodeTree) (x : List Byte) (s t u : State), tr.wf → x ≠ [] → (∀ v ∈ x, v ∈ tr.leaves) →
    Undisturbed s → s.tree = some tr → SourceIs s x → exec .encodePayload s = .next t → t.error = .none →
    let n := t.outLen.toNat - s.outLen.toNat
    Undisturbed u → u.tree = some tr → u.srcLen.toNat = u.payloadOff.toNat + n →
    (∀ k, k < n → srcRead u (u.payloadOff.toNat + k) = dstRead t (s.outLen.toNat + k)) →
    u.outLen.toNat + x.length ≤ u.outCap.toNat →
    ∃ v, exec .decodePayload u = .next v ∧ Completed v .none ∧ v.outLen.toNat = u.outLen.toNat + x.length ∧
      HoldsBytes v u.outLen.toNat x

/-! ### ENCODE and DECODE -/

/-- 43_operations.md R231: ENCODE of a source of one byte or more, where the file fits and where it does not. -/
def Obligations.EncodeWritesTheFile : Prop :=
  ∀ s : State, Undisturbed s → s.srcLen ≠ 0#32 → ∃ f tr, CountsSource s f ∧ BuildsFrom f tr ∧
    let P := ((List.range s.srcLen.toNat).map (srcRead s)).flatMap (codes tr)
    let H := hdrBytes tr.leafCount
    let n := 2 + H + divCeil P.length 8
    ∃ t, exec .encode s = .next t ∧ t.freq = f ∧ t.freqValid = true ∧ t.tree = some tr ∧
      t.leafCnt = tr.leafCount ∧ t.payloadOff = s.payloadOff ∧ KeepsHostSide s t ∧
      (n ≤ s.outCap.toNat → Completed t .none ∧ HoldsHeader t 0 tr ∧ HoldsPayload t (1 + H) P ∧
        t.outLen.toNat = n ∧ KeepsDstOutside s t 0 n) ∧
      (s.outCap.toNat < n → Completed t .ioError ∧ KeepsDstOutside s t 0 s.outCap.toNat)

/-- 43_operations.md R231 and R240: ENCODE of an empty source. OUT_LEN is free afterwards. -/
def Obligations.EncodeRejectsTheEmptySource : Prop :=
  ∀ s : State, Undisturbed s → s.srcLen = 0#32 → ∃ t, exec .encode s = .next t ∧ Completed t .emptySource ∧
    (∀ v, freqAt t.freq v = 0#32) ∧ t.freqValid = true ∧ t.tree = none ∧ t.leafCnt = 0 ∧
    t.payloadOff = s.payloadOff ∧ KeepsDstOutside s t 0 s.outCap.toNat ∧ KeepsHostSide s t

/-- 43_operations.md R232: DECODE of a file of a well-formed tree and of bytes that fit. -/
def Obligations.DecodeRestoresTheBytes : Prop :=
  ∀ (s : State) (tr : CodeTree) (out : List Byte), Undisturbed s → SourceHeader s tr →
    SourcePayload s (1 + hdrBytes tr.leafCount) tr out → out.length ≤ s.outCap.toNat →
    ∃ t, exec .decode s = .next t ∧ Completed t .none ∧ HoldsBytes t 0 out ∧ t.outLen.toNat = out.length ∧
      KeepsDstOutside s t 0 out.length ∧ t.tree = some tr ∧ t.leafCnt = tr.leafCount ∧
      t.payloadOff.toNat = 1 + hdrBytes tr.leafCount ∧ KeepsFreq s t ∧ KeepsHostSide s t

/-- 43_operations.md R232 and R240: the errors of DECODE. OUT_LEN is free afterwards. -/
def Obligations.DecodeErrors : Prop :=
  (∀ s : State, Undisturbed s → (∀ tr, ¬ SourceHeader s tr) →
    ∃ t, exec .decode s = .next t ∧ Completed t .corruptHeader ∧ t.tree = none ∧ t.leafCnt = s.leafCnt ∧
      t.payloadOff = s.payloadOff ∧ KeepsFreq s t ∧ KeepsDstOutside s t 0 s.outCap.toNat ∧ KeepsHostSide s t) ∧
  ∀ (s : State) (tr : CodeTree) (e : ErrorCode), Undisturbed s → SourceHeader s tr →
    ((∀ out, ¬ SourcePayload s (1 + hdrBytes tr.leafCount) tr out) ∧ e = .corruptPayload) ∨
      (∃ out, SourcePayload s (1 + hdrBytes tr.leafCount) tr out ∧ s.outCap.toNat < out.length ∧ e = .ioError) →
    ∃ t, exec .decode s = .next t ∧ Completed t e ∧ t.tree = some tr ∧ t.leafCnt = tr.leafCount ∧
      t.payloadOff.toNat = 1 + hdrBytes tr.leafCount ∧ KeepsFreq s t ∧ KeepsDstOutside s t 0 s.outCap.toNat ∧
      KeepsHostSide s t

/-- 43_operations.md R241: the end-to-end round trip. F is the file, a function of the source bytes alone: ENCODE writes it
wherever it fits, and DECODE of it gives the source back. The one source that ENCODE rejects is the empty one. -/
def Obligations.EndToEndRoundTrip : Prop :=
  (∀ s : State, Undisturbed s → SourceIs s [] → ∃ t, exec .encode s = .next t ∧ Completed t .emptySource) ∧
  ∀ x : List Byte, x ≠ [] → x.length < 2 ^ 32 → ∃ tr, buildTree (countTable x) = some tr ∧
    let F := headerBytes tr ++ payloadBytes (x.flatMap (codes tr))
    (∀ s : State, Undisturbed s → SourceIs s x → F.length ≤ s.outCap.toNat →
      ∃ t, exec .encode s = .next t ∧ Completed t .none ∧ t.outLen.toNat = F.length ∧ HoldsBytes t 0 F) ∧
    ∀ u : State, Undisturbed u → SourceIs u F → x.length ≤ u.outCap.toNat →
      ∃ v, exec .decode u = .next v ∧ Completed v .none ∧ v.outLen.toNat = x.length ∧ HoldsBytes v 0 x

/-! ### All commands -/

/-- 43_operations.md R239 and 60_exceptions.md R267: in every state, every command completes and leaves the core idle and the
host's registers and SRC as they were. -/
def Obligations.EveryCommandCompletes : Prop :=
  ∀ (i : Instr) (s : State), ∃ t, exec i s = .next t ∧ t.pending = .idle ∧ t.done = true ∧
    t.srcHazard = false ∧ t.dstHazard = [] ∧ KeepsHostSide s t

/-- 60_exceptions.md R266 and 20_memory.md R73: whatever a command's result, it changes no DST byte below its output base or at
OUT_CAP or above. The bytes the host itself stored to against its duty are left out. -/
def Obligations.DstChangesOnlyInTheOutputRange : Prop :=
  ∀ (i : Instr) (s t : State), exec i s = .next t → ∀ a, a ∉ s.dstHazard →
    a < outputStart i s ∨ s.outCap.toNat ≤ a → dstRead t a = dstRead s a

/-- 70_reset_and_hazards.md R295, SRC: a source disturbed under a running command spoils only what the command writes
(30_encoding.md R103). -/
def Obligations.DisturbedSourceSpoilsOnlyResults : Prop :=
  ∀ (i : Instr) (s : State), s.srcHazard = true → ∃ t, exec i s = .next t ∧ t.pending = .idle ∧ t.done = true ∧
    KeepsHostSide s t ∧
    (i ∉ [Instr.clear, .count, .encode] → KeepsFreq s t) ∧
    (i ∉ [Instr.clear, .count, .build, .deserialize, .encode, .decode] → t.tree = s.tree ∧ t.leafCnt = s.leafCnt) ∧
    (i ∈ [Instr.clear, .count, .build, .deserialize, .encode, .decode] →
      (∀ tr, t.tree = some tr → tr.wf) ∧ t.leafCnt ≤ 256) ∧
    (i ∉ [Instr.clear, .deserialize, .decode] → t.payloadOff = s.payloadOff) ∧
    ∀ a, a ∉ s.dstHazard → a < outputStart i s ∨ s.outCap.toNat ≤ a → dstRead t a = dstRead s a

/-- 70_reset_and_hazards.md R295, DST: DST bytes the host stored to under a running command are unspecified after it, and nothing
else differs from the undisturbed result. -/
def Obligations.DisturbedOutputSpoilsOnlyThoseBytes : Prop :=
  ∀ (i : Instr) (s : State), ∃ t u, exec i s = .next t ∧ exec i { s with dstHazard := [] } = .next u ∧
    (∀ a, a ∉ s.dstHazard → dstRead t a = dstRead u a) ∧
    t = { u with dst := t.dst, dstFree := t.dstFree, draws := t.draws }

/-- 43_operations.md R242 and 40_tree.md R142: a command depends on SRC only through the bytes SRC[0..SRC_LEN−1]. -/
def Obligations.CommandsReadOnlyTheSource : Prop :=
  ∀ (i : Instr) (s t : State) (m : List Host.Cell),
    (∀ a, a < s.srcLen.toNat → srcRead { s with src := m } a = srcRead s a) →
    exec i s = .next t → exec i { s with src := m } = .next { t with src := m }

/-! ### Invariants and liveness -/

/-- The structural invariant holds after reset. -/
def Obligations.ResetMeetsTheInvariant : Prop := State.reset.Inv ∧ State.reset.TablesInv

/-- Every step from a state of the structural invariant keeps it, whatever the host does (10_state.md R35, R43, R45 (d), R47;
20_memory.md R71, R73). -/
def Obligations.StepKeepsTheInvariant : Prop :=
  ∀ s t : State, s.Inv → Machine.step s = .next t → t.Inv

/-- Every step keeps the invariants of the tables (10_state.md R42, R45 (b), (c), 60_exceptions.md R262) as long as the running
command's source is undisturbed. -/
def Obligations.StepKeepsTheTables : Prop :=
  ∀ s t : State, s.srcHazard = false → s.TablesInv → Machine.step s = .next t → t.TablesInv

/-- 70_reset_and_hazards.md R301: a running command completes, whatever legal actions of the host come first. That it does so at the
first turn of the core is the model's choice (log entry 17). -/
def Obligations.RunningCommandCompletes : Prop :=
  ∀ (s : State) (w : Word) (es : List HostAction), s.pending = .running w → s.inbox = es.map .host →
    (∀ e ∈ es, LegalAction e) →
    ∃ t, Sys2Proof.core.run (es.length + 1) s = .next t ∧ t.pending = .idle ∧ t.done = true ∧ t.inbox = []
end

