-- ==== Sys2Proof/Laws/Bits.lean ====
section
/-! SUPPORT. The laws of packing: the length of a packed string, and its bit i (30_encoding.md R110). -/
namespace Sys2Proof.Machine

@[simp] theorem pack_length (S : Bits) (n : Nat) : (pack S n).length = n := by
  induction n generalizing S with
  | zero => rfl
  | succ n ih => simp [pack, ih]

theorem bitsToNat_testBit (S : Bits) (k : Nat) : (bitsToNat S).testBit k = S.getD k false := by
  induction S generalizing k with
  | nil => simp [bitsToNat]
  | cons b S ih =>
    cases k with
    | zero => cases b <;> simp [bitsToNat, Nat.testBit_zero]
    | succ k =>
      have h : (b.toNat + 2 * bitsToNat S) / 2 = bitsToNat S := by cases b <;> (simp; try omega)
      simp only [bitsToNat, Nat.testBit_succ, h, ih, List.getD_cons_succ]

theorem take_getD (S : Bits) (n k : Nat) (h : k < n) : (S.take n).getD k false = S.getD k false := by
  simp [List.getD_eq_getElem?_getD, h]

theorem packByte_getLsbD (S : Bits) (p : Nat) (hp : p < 8) : (packByte S).getLsbD p = S.getD p false := by
  simp only [packByte, BitVec.getLsbD_ofNat, hp, decide_true, Bool.true_and, bitsToNat_testBit, take_getD S 8 p hp]

theorem packWord_getLsbD (S : Bits) (p : Nat) (hp : p < 32) : (packWord S).getLsbD p = S.getD p false := by
  simp only [packWord, BitVec.getLsbD_ofNat, hp, decide_true, Bool.true_and, bitsToNat_testBit, take_getD S 32 p hp]

theorem drop_getD (S : Bits) (n k : Nat) : (S.drop n).getD k false = S.getD (n + k) false := by
  simp [List.getD_eq_getElem?_getD, List.getElem?_drop]

theorem pack_getElem? (S : Bits) (n j : Nat) (h : j < n) : (pack S n)[j]? = some (packByte (S.drop (8 * j))) := by
  induction n generalizing S j with
  | zero => omega
  | succ n ih =>
    cases j with
    | zero => simp [pack]
    | succ j =>
      rw [pack, List.getElem?_cons_succ, ih _ _ (by omega), List.drop_drop, show 8 + 8 * j = 8 * (j + 1) by omega]

/-- Bit i of the stream that `pack` writes is element i of the string, or 0 past its end. -/
theorem pack_streamBit (S : Bits) (n i : Nat) (byteAt : Nat → Byte)
    (h : ∀ j v, (pack S n)[j]? = some v → byteAt j = v) (hi : i < 8 * n) : streamBit byteAt i = S.getD i false := by
  have hj : i / 8 < n := by omega
  have hp : i % 8 < 8 := Nat.mod_lt _ (by omega)
  rw [streamBit, h _ _ (pack_getElem? S n _ hj), packByte_getLsbD _ _ hp, drop_getD, Nat.div_add_mod]

@[simp] theorem msb8_length (v : Byte) : (msb8 v).length = 8 := rfl

theorem mem_allBytes (v : Byte) : v ∈ allBytes := by
  refine List.mem_map.mpr ⟨v.toNat, List.mem_range.mpr v.isLt, ?_⟩
  simp

theorem allBytes_length : allBytes.length = 256 := by simp [allBytes]

end Sys2Proof.Machine
end

