-- ==== Sys2Proof/Laws/Codes.lean ====
section
/-! SUPPORT. Paths of a tree, and the decoder's walk along them (00_scope.md R13, 40_tree.md R150, 42_bitstream.md R212). -/
namespace Sys2Proof.Machine

theorem path_isSome {t : CodeTree} {v : Byte} : (t.path v).isSome = true ↔ v ∈ t.leaves := by
  induction t with
  | leaf u =>
    simp only [CodeTree.path, CodeTree.leaves, List.mem_singleton]
    by_cases h : u = v
    · simp [h]
    · simp [h, Ne.symm h]
  | node l r ihl ihr =>
    simp only [CodeTree.path, CodeTree.leaves, List.mem_append, ← ihl, ← ihr]
    cases l.path v <;> simp

theorem leaves_ne_nil (t : CodeTree) : t.leaves ≠ [] := by
  induction t with
  | leaf v => simp [CodeTree.leaves]
  | node l r ihl _ => simp [CodeTree.leaves, ihl]

theorem leafCount_pos (t : CodeTree) : 1 ≤ t.leafCount := List.length_pos_iff.mpr (leaves_ne_nil t)

theorem leafCount_node (l r : CodeTree) : (CodeTree.node l r).leafCount = l.leafCount + r.leafCount := by
  simp [CodeTree.leafCount, CodeTree.leaves]

/-- A walk along the path of a leaf value emits it and is back at the root. -/
theorem walk_path (root l r : CodeTree) (v : Byte) (p rest : Bits) (h : (CodeTree.node l r).path v = some p) :
    walk root (.node l r) (p ++ rest) = (walk root root rest).map (v :: ·) := by
  induction p generalizing l r with
  | nil =>
    simp only [CodeTree.path] at h
    split at h
    · simp at h
    · cases hr : r.path v <;> simp [hr] at h
  | cons b p ih =>
    have hc : (b = false ∧ l.path v = some p) ∨ (b = true ∧ r.path v = some p) := by
      simp only [CodeTree.path] at h
      split at h
      · rename_i q hq; simp at h; exact .inl ⟨h.1, by rw [hq, h.2]⟩
      · cases hr : r.path v <;> simp [hr] at h; exact .inr ⟨h.1, by rw [h.2]⟩
    have key : ∀ t : CodeTree, t.path v = some p →
        (match t with
          | .leaf w => (walk root root (p ++ rest)).map (w :: ·)
          | .node l' r' => walk root (.node l' r') (p ++ rest)) = (walk root root rest).map (v :: ·) := by
      intro t ht
      cases t with
      | leaf w =>
        simp only [CodeTree.path] at ht
        split at ht
        · rename_i hw; cases ht; subst hw; rfl
        · cases ht
      | node l' r' => exact ih l' r' ht
    simp only [List.cons_append, walk]
    rcases hc with ⟨rfl, hl⟩ | ⟨rfl, hr⟩
    · exact key l hl
    · exact key r hr

/-- The decoder inverts the code table: the codes of any string of leaf values decode to it. -/
theorem decodeBits_codes (t : CodeTree) (out : List Byte) (h : ∀ v ∈ out, v ∈ t.leaves) :
    decodeBits t (out.flatMap (codes t)) = some out := by
  cases t with
  | leaf u =>
    simp only [decodeBits]
    induction out with
    | nil => rfl
    | cons v out ih =>
      have hv : u = v := by simpa [CodeTree.leaves, eq_comm] using h v (by simp)
      subst hv
      simp only [List.flatMap_cons, codes, if_true, List.singleton_append, walkLeaf]
      rw [ih fun w hw => h w (by simp [hw])]
      rfl
  | node l r =>
    simp only [decodeBits]
    induction out with
    | nil => simp [walk]
    | cons v out ih =>
      have hv := path_isSome.mpr (h v (by simp))
      obtain ⟨p, hp⟩ := Option.isSome_iff_exists.mp hv
      have hc : codes (.node l r) v = p := by simp [codes, hp]
      rw [List.flatMap_cons, hc, walk_path _ _ _ _ _ _ hp, ih fun w hw => h w (by simp [hw])]
      rfl

/-- What a walk that raises nothing has read from a cursor inside the root: nothing, with the cursor at the root, or the path of
a leaf value and then a walk from the root. -/
theorem walk_some (root cur : CodeTree) (bs : Bits) (out : List Byte) (hn : cur.leaves.Nodup)
    (hle : cur.leafCount ≤ root.leafCount) (h : walk root cur bs = some out) :
    (cur = root ∧ bs = [] ∧ out = []) ∨
      ∃ v p rest out', cur.path v = some p ∧ bs = p ++ rest ∧ walk root root rest = some out' ∧ out = v :: out' := by
  induction bs generalizing cur out with
  | nil =>
    simp only [walk] at h
    split at h
    · cases h; exact .inl ⟨‹_›, rfl, rfl⟩
    · cases h
  | cons b bs ih =>
    cases cur with
    | leaf u => simp [walk] at h
    | node l r =>
      right
      have hd := List.nodup_append.mp hn
      have hpl := leafCount_pos l
      have hpr := leafCount_pos r
      rw [leafCount_node] at hle
      have key : ∀ t : CodeTree, t.leaves.Nodup → t.leafCount < root.leafCount →
          (match t with
            | .leaf w => (walk root root bs).map (w :: ·)
            | .node l' r' => walk root (.node l' r') bs) = some out →
          ∃ v p rest out', t.path v = some p ∧ bs = p ++ rest ∧ walk root root rest = some out' ∧ out = v :: out' := by
        intro t htn hlt ht
        cases t with
        | leaf w =>
          obtain ⟨o, ho, rfl⟩ := Option.map_eq_some_iff.mp ht
          exact ⟨w, [], bs, o, by simp [CodeTree.path], rfl, ho, rfl⟩
        | node l' r' =>
          rcases ih _ _ htn (Nat.le_of_lt hlt) ht with ⟨he, _⟩ | h'
          · rw [he] at hlt; omega
          · exact h'
      simp only [walk] at h
      cases b with
      | false =>
        obtain ⟨v, p, rest, o, hp, rfl, hw, rfl⟩ := key l hd.1 (by omega) h
        exact ⟨v, false :: p, rest, o, by simp [CodeTree.path, hp], rfl, hw, rfl⟩
      | true =>
        obtain ⟨v, p, rest, o, hp, rfl, hw, rfl⟩ := key r hd.2.1 (by omega) h
        have hv : v ∈ r.leaves := path_isSome.mp (by simp [hp])
        have hl : l.path v = none := by
          by_contra hc
          have : v ∈ l.leaves := path_isSome.mp (by
            cases hq : l.path v with
            | none => exact absurd hq hc
            | some _ => rfl)
          exact hd.2.2 v this v hv rfl
        exact ⟨v, true :: p, rest, o, by simp [CodeTree.path, hl, hp], rfl, hw, rfl⟩

/-- Bits that decode to a string of bytes are its codes, and the bytes are leaf values. -/
theorem decodeBits_some (t : CodeTree) (ht : t.leaves.Nodup) (bs : Bits) (out : List Byte) (h : decodeBits t bs = some out) :
    bs = out.flatMap (codes t) ∧ ∀ v ∈ out, v ∈ t.leaves := by
  cases t with
  | leaf u =>
    simp only [decodeBits] at h
    induction bs generalizing out with
    | nil => cases h; simp
    | cons b bs ih =>
      cases b with
      | true => simp [walkLeaf] at h
      | false =>
        obtain ⟨o, ho, rfl⟩ := Option.map_eq_some_iff.mp h
        obtain ⟨rfl, hm⟩ := ih o ho
        refine ⟨by simp [codes], fun v hv => ?_⟩
        rcases List.mem_cons.mp hv with rfl | hv
        · simp [CodeTree.leaves]
        · exact hm v hv
  | node l r =>
    simp only [decodeBits] at h
    induction hl : bs.length using Nat.strong_induction_on generalizing bs out with
    | _ n ih =>
      rcases walk_some _ _ bs out ht (Nat.le_refl _) h with ⟨_, rfl, rfl⟩ | ⟨v, p, rest, o, hp, rfl, hw, rfl⟩
      · simp
      · have hlen : rest.length < n := by
          rw [← hl, List.length_append]
          have : p ≠ [] := by
            rintro rfl
            simp only [CodeTree.path] at hp
            split at hp
            · simp at hp
            · cases hr : r.path v <;> simp [hr] at hp
          have := List.length_pos_iff.mpr this
          omega
        obtain ⟨hr, hm⟩ := ih _ hlen rest o hw rfl
        have hc : codes (.node l r) v = p := by simp [codes, hp]
        refine ⟨by rw [List.flatMap_cons, hc, ← hr], fun w hw => ?_⟩
        rcases List.mem_cons.mp hw with rfl | hw
        · exact path_isSome.mp (by simp [hp])
        · exact hm w hw

end Sys2Proof.Machine
end

