-- ==== Sys2Proof/Laws/Header.lean ====
section
/-! SUPPORT. The header bits and the parse loop: leaf values, filling holes, and what one pass and the whole loop do
(41_header.md R171, R182). -/
namespace Sys2Proof.Machine

/-! ### Leaf values -/

theorem val8_eq (bit : Nat → Bool) (i : Nat) :
    val8 bit i = BitVec.ofNat 8 ((bit i).toNat * 128 + (bit (i + 1)).toNat * 64 + (bit (i + 2)).toNat * 32 +
      (bit (i + 3)).toNat * 16 + (bit (i + 4)).toNat * 8 + (bit (i + 5)).toNat * 4 + (bit (i + 6)).toNat * 2 +
      (bit (i + 7)).toNat) := by
  simp [val8, List.range, List.range.loop, Nat.add_assoc]

/-- Reading the eight bits of a value, most significant first, gives the value. -/
theorem val8_msb8 (bit : Nat → Bool) (i : Nat) (v : Byte) (h : ∀ k, k < 8 → bit (i + k) = (msb8 v).getD k false) :
    val8 bit i = v := by
  have h0 := h 0 (by omega)
  have h1 := h 1 (by omega)
  have h2 := h 2 (by omega)
  have h3 := h 3 (by omega)
  have h4 := h 4 (by omega)
  have h5 := h 5 (by omega)
  have h6 := h 6 (by omega)
  have h7 := h 7 (by omega)
  rw [Nat.add_zero] at h0
  rw [val8_eq, h0, h1, h2, h3, h4, h5, h6, h7]
  clear * -
  revert v
  decide +kernel

/-- The eight bits of the value read are the bits read. -/
theorem msb8_val8 (bit : Nat → Bool) (i : Nat) :
    msb8 (val8 bit i) = [bit i, bit (i + 1), bit (i + 2), bit (i + 3), bit (i + 4), bit (i + 5), bit (i + 6), bit (i + 7)] := by
  rw [val8_eq]
  generalize bit i = a, bit (i + 1) = b, bit (i + 2) = c, bit (i + 3) = d, bit (i + 4) = e, bit (i + 5) = f,
    bit (i + 6) = g, bit (i + 7) = h
  clear bit i
  revert a b c d e f g h
  decide +kernel

/-! ### Filling holes -/

/-- A tree without holes. -/
def CodeTree.toHole : CodeTree → HoleTree
  | .leaf v => .leaf v
  | .node l r => .node l.toHole r.toHole

@[simp] theorem complete_toHole (t : CodeTree) : t.toHole.complete = some t := by
  induction t with
  | leaf v => rfl
  | node l r ihl ihr => simp [CodeTree.toHole, HoleTree.complete, ihl, ihr]

@[simp] theorem fill_toHole (t : CodeTree) (n : HoleTree) : t.toHole.fill n = none := by
  induction t with
  | leaf v => rfl
  | node l r ihl ihr => simp [CodeTree.toHole, HoleTree.fill, ihl, ihr]

/-- Whether a hole is found does not depend on what it is filled with. -/
theorem fill_isSome (root a b : HoleTree) : (root.fill a).isSome = (root.fill b).isSome := by
  induction root with
  | hole => rfl
  | leaf v => rfl
  | node l r ihl ihr =>
    simp only [HoleTree.fill]
    cases ha : l.fill a <;> cases hb : l.fill b <;> simp [ha, hb, ihr] at ihl ⊢

/-- The next hole after filling one with a tree that has holes is the first hole of that tree. -/
theorem fill_fill (root n n' x r : HoleTree) (h : root.fill n = some r) (hn : n.fill x = some n') :
    r.fill x = root.fill n' := by
  induction root generalizing r with
  | hole => simp only [HoleTree.fill, Option.some.injEq] at h ⊢; subst h; exact hn
  | leaf v => simp [HoleTree.fill] at h
  | node l rr ihl ihr =>
    simp only [HoleTree.fill] at h ⊢
    have hs := fill_isSome l n n'
    cases hl : l.fill n with
    | some l' =>
      rw [hl] at h hs
      simp only [Option.some.injEq] at h
      subst h
      have := ihl l' hl
      cases hl' : l.fill n' with
      | none => simp [hl'] at hs
      | some l'' => simp [HoleTree.fill, this, hl']
    | none =>
      rw [hl] at h hs
      have hl' : l.fill n' = none := by cases h' : l.fill n' <;> simp [h'] at hs ⊢
      have hlx : l.fill x = none := by
        have := fill_isSome l x n
        cases h' : l.fill x <;> simp [h', hl] at this ⊢
      obtain ⟨r', hr', rfl⟩ := Option.map_eq_some_iff.mp h
      simp [HoleTree.fill, hlx, hl', ihr r' hr']

/-! ### Parsing the header of a tree -/

/-- From a state whose next hole is to hold t, the header of t fills that hole with t: the loop takes one pass for each node of t,
and goes on behind its header. -/
theorem parseLoop_hdr (bit : Nat → Bool) (L HB : Nat) (t : CodeTree) (fuel : Nat) (p : Parse) (r : HoleTree)
    (hfill : p.root.fill t.toHole = some r)
    (hbits : ∀ k, k < (hdr t).length → bit (p.i + k) = (hdr t).getD k false)
    (hnew : (t.leaves ++ p.seen).Nodup) (hz : p.z + t.internalNodes ≤ L - 1) (hi : p.i + (hdr t).length ≤ HB) :
    parseLoop bit L HB (fuel + (t.leafCount + t.internalNodes)) p =
      parseLoop bit L HB fuel ⟨r, p.i + (hdr t).length, p.z + t.internalNodes, t.leaves.reverse ++ p.seen⟩ := by
  induction t generalizing fuel p r with
  | leaf v =>
    have hlen : (hdr (.leaf v)).length = 9 := rfl
    rw [hlen] at hbits hi
    have hb : bit p.i = true := hbits 0 (by omega)
    have hv : val8 bit (p.i + 1) = v := val8_msb8 bit _ v fun k hk => by
      have := hbits (k + 1) (by omega)
      rw [Nat.add_assoc, Nat.add_comm 1 k, this]; rfl
    have hseen : v ∉ p.seen := by
      have := List.nodup_append.mp hnew
      exact fun h => this.2.2 v (by simp [CodeTree.leaves]) v h rfl
    have hstep : parseStep bit L HB p = some ⟨r, p.i + 9, p.z, v :: p.seen⟩ := by
      have hfill' : p.root.fill (.leaf v) = some r := hfill
      simp only [parseStep, hb, hv, hfill']
      rw [if_neg (by simp), if_neg (by omega), if_neg hseen]
    show parseLoop bit L HB (fuel + 1) p = _
    simp only [parseLoop, hstep]
    rw [if_pos (by omega)]
    rfl
  | node l r' ihl ihr =>
    have hlen : (hdr (.node l r')).length = 1 + (hdr l).length + (hdr r').length := by
      simp [hdr]; omega
    have hget : ∀ k, (hdr (.node l r')).getD (k + 1) false = (hdr l ++ hdr r').getD k false := fun k => rfl
    rw [hlen] at hbits hi
    have hb : bit p.i = false := hbits 0 (by omega)
    simp only [CodeTree.internalNodes] at hz
    have hnew' : (l.leaves ++ r'.leaves ++ p.seen).Nodup := hnew
    cases hf1 : p.root.fill (.node .hole .hole) with
    | none =>
      have := fill_isSome p.root (.node .hole .hole) (CodeTree.node l r').toHole
      simp [hf1, hfill] at this
    | some root₁ =>
      have hstep : parseStep bit L HB p = some ⟨root₁, p.i + 1, p.z + 1, p.seen⟩ := by
        simp only [parseStep, hb, hf1, if_true]
        rw [if_neg (by omega)]
      have f2 := fill_fill p.root (.node .hole .hole) (.node l.toHole .hole) l.toHole root₁ hf1 rfl
      have hsome := fill_isSome p.root (.node l.toHole .hole) (.node .hole .hole)
      rw [hf1] at hsome
      obtain ⟨root₂, hf2⟩ := Option.isSome_iff_exists.mp hsome
      have f3 := fill_fill p.root (.node l.toHole .hole) (.node l.toHole r'.toHole) r'.toHole root₂ hf2
        (by simp [HoleTree.fill])
      have e1 : fuel + ((CodeTree.node l r').leafCount + (CodeTree.node l r').internalNodes) =
          (fuel + (r'.leafCount + r'.internalNodes) + (l.leafCount + l.internalNodes)) + 1 := by
        rw [leafCount_node]; simp only [CodeTree.internalNodes]; omega
      rw [e1]
      show parseLoop bit L HB (_ + 1) p = _
      simp only [parseLoop, hstep]
      rw [if_pos (by omega)]
      rw [ihl _ ⟨root₁, p.i + 1, p.z + 1, p.seen⟩ root₂ (by rw [← hf2, ← f2])
        (by
          intro k hk
          have := hbits (k + 1) (by omega)
          rw [hget] at this
          show bit (p.i + 1 + k) = _
          rw [Nat.add_assoc, Nat.add_comm 1 k, this, List.getD_eq_getElem?_getD, List.getElem?_append_left hk,
            ← List.getD_eq_getElem?_getD])
        (by
          refine hnew'.sublist ?_
          exact (List.sublist_append_left _ _).append (List.Sublist.refl _))
        (by show p.z + 1 + l.internalNodes ≤ L - 1; omega)
        (by show p.i + 1 + (hdr l).length ≤ HB; omega)]
      rw [ihr _ _ r (by rw [f3]; exact hfill)
        (by
          intro k hk
          have := hbits ((hdr l).length + k + 1) (by omega)
          rw [hget] at this
          show bit (p.i + 1 + (hdr l).length + k) = _
          rw [show p.i + 1 + (hdr l).length + k = p.i + ((hdr l).length + k + 1) by omega, this,
            List.getD_eq_getElem?_getD, List.getElem?_append_right (by omega), Nat.add_sub_cancel_left,
            ← List.getD_eq_getElem?_getD])
        (by
          refine List.Perm.nodup (l := l.leaves ++ r'.leaves ++ p.seen) ?_ hnew'
          show (l.leaves ++ r'.leaves ++ p.seen).Perm (r'.leaves ++ (l.leaves.reverse ++ p.seen))
          rw [← List.append_assoc]
          exact (List.perm_append_comm.trans (List.Perm.append_left _ (List.reverse_perm _).symm)).append_right _)
        (by show p.z + 1 + l.internalNodes + r'.internalNodes ≤ L - 1; omega)
        (by show p.i + 1 + (hdr l).length + (hdr r').length ≤ HB; omega)]
      congr 1
      simp only [CodeTree.internalNodes, CodeTree.leaves, List.reverse_append, List.append_assoc, hlen,
        Parse.mk.injEq, true_and, and_true]
      omega

/-! ### What has been read of a header -/

/-- The bits of the decided nodes of a tree with holes, in preorder. -/
def HoleTree.bits : HoleTree → Bits
  | .hole => []
  | .leaf v => true :: msb8 v
  | .node l r => false :: (l.bits ++ r.bits)

/-- The leaf values decided so far, in preorder. -/
def HoleTree.values : HoleTree → List Byte
  | .hole => []
  | .leaf v => [v]
  | .node l r => l.values ++ r.values

/-- The internal nodes decided so far. -/
def HoleTree.inner : HoleTree → Nat
  | .hole => 0
  | .leaf _ => 0
  | .node l r => l.inner + r.inner + 1

/-- The holes. -/
def HoleTree.holes : HoleTree → Nat
  | .hole => 1
  | .leaf _ => 0
  | .node l r => l.holes + r.holes

/-- Nothing behind the first hole in preorder is decided. -/
def HoleTree.Tidy : HoleTree → Prop
  | .hole => True
  | .leaf _ => True
  | .node l r => l.Tidy ∧ r.Tidy ∧ (l.holes ≠ 0 → r = .hole)

theorem fill_eq_none {root n : HoleTree} : root.fill n = none ↔ root.holes = 0 := by
  induction root with
  | hole => simp [HoleTree.fill, HoleTree.holes]
  | leaf v => simp [HoleTree.fill, HoleTree.holes]
  | node l r ihl ihr =>
    simp only [HoleTree.fill, HoleTree.holes, Nat.add_eq_zero_iff, ← ihl, ← ihr]
    cases l.fill n <;> simp

theorem complete_of_holes {root : HoleTree} (h : root.holes = 0) :
    ∃ t : CodeTree, root.complete = some t ∧ root = t.toHole := by
  induction root with
  | hole => simp [HoleTree.holes] at h
  | leaf v => exact ⟨.leaf v, rfl, rfl⟩
  | node l r ihl ihr =>
    simp only [HoleTree.holes, Nat.add_eq_zero_iff] at h
    obtain ⟨a, ha, rfl⟩ := ihl h.1
    obtain ⟨b, hb, rfl⟩ := ihr h.2
    exact ⟨.node a b, by simp [HoleTree.complete], rfl⟩

theorem complete_some {root : HoleTree} {t : CodeTree} (h : root.complete = some t) : root = t.toHole := by
  induction root generalizing t with
  | hole => simp [HoleTree.complete] at h
  | leaf v => cases h; rfl
  | node l r ihl ihr =>
    simp only [HoleTree.complete] at h
    split at h
    · rename_i a b ha hb
      cases h
      rw [ihl ha, ihr hb]; rfl
    · cases h

theorem toHole_bits (t : CodeTree) : t.toHole.bits = hdr t := by
  induction t with
  | leaf v => rfl
  | node l r ihl ihr => simp [CodeTree.toHole, HoleTree.bits, hdr, ihl, ihr]

theorem toHole_values (t : CodeTree) : t.toHole.values = t.leaves := by
  induction t with
  | leaf v => rfl
  | node l r ihl ihr => simp [CodeTree.toHole, HoleTree.values, CodeTree.leaves, ihl, ihr]

theorem toHole_inner (t : CodeTree) : t.toHole.inner = t.internalNodes := by
  induction t with
  | leaf v => rfl
  | node l r ihl ihr => simp [CodeTree.toHole, HoleTree.inner, CodeTree.internalNodes, ihl, ihr]

/-- In every tree with holes, holes and leaves together are one more than the internal nodes. -/
theorem holes_add_values (t : HoleTree) : t.holes + t.values.length = t.inner + 1 := by
  induction t with
  | hole => rfl
  | leaf v => rfl
  | node l r ihl ihr =>
    simp only [HoleTree.holes, HoleTree.values, HoleTree.inner, List.length_append]; omega

/-- Ten bits for a leaf and its share of the internal nodes: the length of what has been read. -/
theorem bits_length (t : HoleTree) : t.bits.length = 9 * t.values.length + t.inner := by
  induction t with
  | hole => rfl
  | leaf v => rfl
  | node l r ihl ihr =>
    simp only [HoleTree.bits, HoleTree.values, HoleTree.inner, List.length_append, List.length_cons]; omega

/-- Filling the first hole of a tidy tree adds to what has been read at its end. -/
theorem fill_reads {root n r : HoleTree} (ht : root.Tidy) (h : root.fill n = some r) :
    r.bits = root.bits ++ n.bits ∧ r.values = root.values ++ n.values ∧ r.inner = root.inner + n.inner ∧
      r.holes + 1 = root.holes + n.holes := by
  induction root generalizing r with
  | hole =>
    cases h
    simp only [HoleTree.bits, HoleTree.values, HoleTree.inner, HoleTree.holes, List.nil_append]
    exact ⟨trivial, trivial, by omega, by omega⟩
  | leaf v => simp [HoleTree.fill] at h
  | node l rr ihl ihr =>
    obtain ⟨tl, tr, hlr⟩ := ht
    simp only [HoleTree.fill] at h
    split at h
    · rename_i l' hl
      cases h
      have hne : l.holes ≠ 0 := fun h0 => by rw [fill_eq_none.mpr h0] at hl; cases hl
      have hrr := hlr hne
      subst hrr
      obtain ⟨h1, h2, h3, h4⟩ := ihl tl hl
      simp only [HoleTree.bits, HoleTree.values, HoleTree.inner, HoleTree.holes, h1, h2, h3, List.append_nil,
        List.cons_append]
      exact ⟨trivial, trivial, by omega, by omega⟩
    · obtain ⟨r', hr', rfl⟩ := Option.map_eq_some_iff.mp h
      obtain ⟨h1, h2, h3, h4⟩ := ihr tr hr'
      simp only [HoleTree.bits, HoleTree.values, HoleTree.inner, HoleTree.holes, h1, h2, h3, List.append_assoc,
        List.cons_append]
      exact ⟨trivial, trivial, by omega, by omega⟩

/-- Filling the first hole with a leaf, or with a node of two holes, keeps a tree tidy. -/
theorem fill_tidy {root n r : HoleTree} (ht : root.Tidy) (hn : n.Tidy) (h : root.fill n = some r) : r.Tidy := by
  induction root generalizing r with
  | hole => cases h; exact hn
  | leaf v => simp [HoleTree.fill] at h
  | node l rr ihl ihr =>
    obtain ⟨tl, tr, hlr⟩ := ht
    simp only [HoleTree.fill] at h
    split at h
    · rename_i l' hl
      cases h
      have hne : l.holes ≠ 0 := fun h0 => by rw [fill_eq_none.mpr h0] at hl; cases hl
      exact ⟨ihl tl hl, tr, fun _ => hlr hne⟩
    · rename_i hl
      obtain ⟨r', hr', rfl⟩ := Option.map_eq_some_iff.mp h
      exact ⟨tl, ihr tr hr', fun h0 => absurd (fill_eq_none.mp hl) h0⟩

/-- What the variables of the parse loop say of the bits read (41_header.md R182, R184). -/
structure Parse.Reads (bit : Nat → Bool) (L HB : Nat) (p : Parse) : Prop where
  tidy   : p.root.Tidy
  bits   : p.root.bits = (List.range p.i).map bit
  inner  : p.root.inner = p.z
  few    : p.z ≤ L - 1
  seen   : p.seen = p.root.values.reverse
  fresh  : p.root.values.Nodup
  bound  : p.i ≤ HB

theorem map_range_add (bit : Nat → Bool) (i n : Nat) :
    (List.range (i + n)).map bit = (List.range i).map bit ++ (List.range n).map fun k => bit (i + k) := by
  rw [List.range_add, List.map_append, List.map_map]; rfl

/-- A pass that raises nothing keeps the reading. -/
theorem parseStep_reads {bit : Nat → Bool} {L HB : Nat} {p p' : Parse} (h : parseStep bit L HB p = some p')
    (hr : p.Reads bit L HB) (hi : p.i < HB) : p'.Reads bit L HB := by
  obtain ⟨tidy, bits, inner, few, seen, fresh, bound⟩ := hr
  unfold parseStep at h
  split at h
  · rename_i hb
    split at h
    · cases h
    · rename_i root hroot
      split at h
      · cases h
      · cases h
        obtain ⟨h1, h2, h3, _⟩ := fill_reads tidy hroot
        refine ⟨fill_tidy (n := .node .hole .hole) tidy ⟨trivial, trivial, fun _ => rfl⟩ hroot, ?_, ?_, by show p.z + 1 ≤ L - 1; omega, ?_, ?_, hi⟩
        · show root.bits = _
          rw [h1, bits, map_range_add]; simp [HoleTree.bits, hb]
        · show root.inner = _
          rw [h3, inner]; rfl
        · show p.seen = root.values.reverse
          rw [h2, seen]; simp [HoleTree.values]
        · show root.values.Nodup
          rw [h2]; simpa [HoleTree.values] using fresh
  · rename_i hb
    have hb : bit p.i = true := by simpa using hb
    simp only at h
    split at h
    · cases h
    · rename_i root hroot
      split at h
      · cases h
      · split at h
        · cases h
        · rename_i hc hd
          cases h
          obtain ⟨h1, h2, h3, _⟩ := fill_reads tidy hroot
          refine ⟨fill_tidy (n := .leaf _) tidy trivial hroot, ?_, ?_, few, ?_, ?_, by show p.i + 9 ≤ HB; omega⟩
          · show root.bits = _
            rw [h1, bits, map_range_add]
            simp only [HoleTree.bits, msb8_val8]
            simp [List.range, List.range.loop, hb, Nat.add_assoc]
          · show root.inner = _
            rw [h3, inner]; rfl
          · show _ :: p.seen = root.values.reverse
            rw [h2, seen]; simp [HoleTree.values]
          · show root.values.Nodup
            rw [h2]
            rw [seen, List.mem_reverse] at hd
            simp only [HoleTree.values, List.nodup_append, List.nodup_cons, List.not_mem_nil, not_false_eq_true,
              List.nodup_nil, and_self, true_and, List.mem_singleton]
            refine ⟨fresh, ?_⟩
            rintro a ha b rfl rfl
            exact hd ha

/-- So does the loop, which stops at HB or with its fuel used up. -/
theorem parseLoop_reads {bit : Nat → Bool} {L HB fuel : Nat} {p p' : Parse} (h : parseLoop bit L HB fuel p = some p')
    (hr : p.Reads bit L HB) : p'.Reads bit L HB ∧ (HB ≤ p.i + fuel → HB ≤ p'.i) := by
  induction fuel generalizing p with
  | zero => cases h; exact ⟨hr, fun h => h⟩
  | succ fuel ih =>
    simp only [parseLoop] at h
    split at h
    · rename_i hi
      split at h
      · cases h
      · rename_i q hq
        obtain ⟨h1, h2⟩ := ih h (parseStep_reads hq hr hi)
        refine ⟨h1, fun hle => h2 ?_⟩
        have : p.i + 1 ≤ q.i := by
          unfold parseStep at hq
          split at hq
          · split at hq
            · cases hq
            · split at hq
              · cases hq
              · cases hq; exact Nat.le_refl _
          · simp only at hq
            split at hq
            · cases hq
            · split at hq
              · cases hq
              · split at hq
                · cases hq
                · cases hq; show p.i + 1 ≤ p.i + 9; omega
        omega
    · cases h; exact ⟨hr, fun _ => by omega⟩

theorem start_reads (bit : Nat → Bool) (L HB : Nat) : Parse.Reads bit L HB ⟨.hole, 0, 0, []⟩ :=
  ⟨trivial, rfl, rfl, Nat.zero_le _, rfl, List.nodup_nil, Nat.zero_le _⟩

end Sys2Proof.Machine
end

