-- ==== Sys2Proof/Laws/State.lean ====
section
/-! SUPPORT. What each named update of the state leaves as it was: one lemma per field per update. -/
namespace Sys2Proof.Machine

/-! ### unspecifyDst -/

@[simp] theorem unspecifyDst_pending (lo hi : Nat) (s : State) : (unspecifyDst lo hi s).pending = s.pending := rfl
@[simp] theorem unspecifyDst_done (lo hi : Nat) (s : State) : (unspecifyDst lo hi s).done = s.done := rfl
@[simp] theorem unspecifyDst_error (lo hi : Nat) (s : State) : (unspecifyDst lo hi s).error = s.error := rfl
@[simp] theorem unspecifyDst_lastOp (lo hi : Nat) (s : State) : (unspecifyDst lo hi s).lastOp = s.lastOp := rfl
@[simp] theorem unspecifyDst_freqValid (lo hi : Nat) (s : State) : (unspecifyDst lo hi s).freqValid = s.freqValid := rfl
@[simp] theorem unspecifyDst_irqEn (lo hi : Nat) (s : State) : (unspecifyDst lo hi s).irqEn = s.irqEn := rfl
@[simp] theorem unspecifyDst_srcLen (lo hi : Nat) (s : State) : (unspecifyDst lo hi s).srcLen = s.srcLen := rfl
@[simp] theorem unspecifyDst_outCap (lo hi : Nat) (s : State) : (unspecifyDst lo hi s).outCap = s.outCap := rfl
@[simp] theorem unspecifyDst_outLen (lo hi : Nat) (s : State) : (unspecifyDst lo hi s).outLen = s.outLen := rfl
@[simp] theorem unspecifyDst_payloadOff (lo hi : Nat) (s : State) : (unspecifyDst lo hi s).payloadOff = s.payloadOff := rfl
@[simp] theorem unspecifyDst_leafCnt (lo hi : Nat) (s : State) : (unspecifyDst lo hi s).leafCnt = s.leafCnt := rfl
@[simp] theorem unspecifyDst_freq (lo hi : Nat) (s : State) : (unspecifyDst lo hi s).freq = s.freq := rfl
@[simp] theorem unspecifyDst_tree (lo hi : Nat) (s : State) : (unspecifyDst lo hi s).tree = s.tree := rfl
@[simp] theorem unspecifyDst_src (lo hi : Nat) (s : State) : (unspecifyDst lo hi s).src = s.src := rfl
@[simp] theorem unspecifyDst_srcHazard (lo hi : Nat) (s : State) : (unspecifyDst lo hi s).srcHazard = s.srcHazard := rfl
@[simp] theorem unspecifyDst_dstHazard (lo hi : Nat) (s : State) : (unspecifyDst lo hi s).dstHazard = s.dstHazard := rfl
@[simp] theorem unspecifyDst_readData (lo hi : Nat) (s : State) : (unspecifyDst lo hi s).readData = s.readData := rfl
@[simp] theorem unspecifyDst_inbox (lo hi : Nat) (s : State) : (unspecifyDst lo hi s).inbox = s.inbox := rfl

/-! ### unspecifyOutput -/

@[simp] theorem unspecifyOutput_pending (o : Nat) (s : State) : (unspecifyOutput o s).pending = s.pending := rfl
@[simp] theorem unspecifyOutput_done (o : Nat) (s : State) : (unspecifyOutput o s).done = s.done := rfl
@[simp] theorem unspecifyOutput_error (o : Nat) (s : State) : (unspecifyOutput o s).error = s.error := rfl
@[simp] theorem unspecifyOutput_lastOp (o : Nat) (s : State) : (unspecifyOutput o s).lastOp = s.lastOp := rfl
@[simp] theorem unspecifyOutput_freqValid (o : Nat) (s : State) : (unspecifyOutput o s).freqValid = s.freqValid := rfl
@[simp] theorem unspecifyOutput_irqEn (o : Nat) (s : State) : (unspecifyOutput o s).irqEn = s.irqEn := rfl
@[simp] theorem unspecifyOutput_srcLen (o : Nat) (s : State) : (unspecifyOutput o s).srcLen = s.srcLen := rfl
@[simp] theorem unspecifyOutput_outCap (o : Nat) (s : State) : (unspecifyOutput o s).outCap = s.outCap := rfl
@[simp] theorem unspecifyOutput_payloadOff (o : Nat) (s : State) : (unspecifyOutput o s).payloadOff = s.payloadOff := rfl
@[simp] theorem unspecifyOutput_leafCnt (o : Nat) (s : State) : (unspecifyOutput o s).leafCnt = s.leafCnt := rfl
@[simp] theorem unspecifyOutput_freq (o : Nat) (s : State) : (unspecifyOutput o s).freq = s.freq := rfl
@[simp] theorem unspecifyOutput_tree (o : Nat) (s : State) : (unspecifyOutput o s).tree = s.tree := rfl
@[simp] theorem unspecifyOutput_src (o : Nat) (s : State) : (unspecifyOutput o s).src = s.src := rfl
@[simp] theorem unspecifyOutput_srcHazard (o : Nat) (s : State) : (unspecifyOutput o s).srcHazard = s.srcHazard := rfl
@[simp] theorem unspecifyOutput_dstHazard (o : Nat) (s : State) : (unspecifyOutput o s).dstHazard = s.dstHazard := rfl
@[simp] theorem unspecifyOutput_readData (o : Nat) (s : State) : (unspecifyOutput o s).readData = s.readData := rfl
@[simp] theorem unspecifyOutput_inbox (o : Nat) (s : State) : (unspecifyOutput o s).inbox = s.inbox := rfl

/-! ### accept -/

@[simp] theorem accept_freqValid (w : Word) (s : State) : (accept w s).freqValid = s.freqValid := rfl
@[simp] theorem accept_irqEn (w : Word) (s : State) : (accept w s).irqEn = s.irqEn := rfl
@[simp] theorem accept_srcLen (w : Word) (s : State) : (accept w s).srcLen = s.srcLen := rfl
@[simp] theorem accept_outCap (w : Word) (s : State) : (accept w s).outCap = s.outCap := rfl
@[simp] theorem accept_outLen (w : Word) (s : State) : (accept w s).outLen = s.outLen := rfl
@[simp] theorem accept_payloadOff (w : Word) (s : State) : (accept w s).payloadOff = s.payloadOff := rfl
@[simp] theorem accept_leafCnt (w : Word) (s : State) : (accept w s).leafCnt = s.leafCnt := rfl
@[simp] theorem accept_freq (w : Word) (s : State) : (accept w s).freq = s.freq := rfl
@[simp] theorem accept_tree (w : Word) (s : State) : (accept w s).tree = s.tree := rfl
@[simp] theorem accept_src (w : Word) (s : State) : (accept w s).src = s.src := rfl
@[simp] theorem accept_dst (w : Word) (s : State) : (accept w s).dst = s.dst := rfl
@[simp] theorem accept_dstFree (w : Word) (s : State) : (accept w s).dstFree = s.dstFree := rfl
@[simp] theorem accept_draws (w : Word) (s : State) : (accept w s).draws = s.draws := rfl
@[simp] theorem accept_readData (w : Word) (s : State) : (accept w s).readData = s.readData := rfl
@[simp] theorem accept_inbox (w : Word) (s : State) : (accept w s).inbox = s.inbox := rfl

/-! ### acknowledge -/

@[simp] theorem acknowledge_pending (s : State) : (acknowledge s).pending = s.pending := rfl
@[simp] theorem acknowledge_lastOp (s : State) : (acknowledge s).lastOp = s.lastOp := rfl
@[simp] theorem acknowledge_freqValid (s : State) : (acknowledge s).freqValid = s.freqValid := rfl
@[simp] theorem acknowledge_irqEn (s : State) : (acknowledge s).irqEn = s.irqEn := rfl
@[simp] theorem acknowledge_srcLen (s : State) : (acknowledge s).srcLen = s.srcLen := rfl
@[simp] theorem acknowledge_outCap (s : State) : (acknowledge s).outCap = s.outCap := rfl
@[simp] theorem acknowledge_outLen (s : State) : (acknowledge s).outLen = s.outLen := rfl
@[simp] theorem acknowledge_payloadOff (s : State) : (acknowledge s).payloadOff = s.payloadOff := rfl
@[simp] theorem acknowledge_leafCnt (s : State) : (acknowledge s).leafCnt = s.leafCnt := rfl
@[simp] theorem acknowledge_freq (s : State) : (acknowledge s).freq = s.freq := rfl
@[simp] theorem acknowledge_tree (s : State) : (acknowledge s).tree = s.tree := rfl
@[simp] theorem acknowledge_src (s : State) : (acknowledge s).src = s.src := rfl
@[simp] theorem acknowledge_dst (s : State) : (acknowledge s).dst = s.dst := rfl
@[simp] theorem acknowledge_dstFree (s : State) : (acknowledge s).dstFree = s.dstFree := rfl
@[simp] theorem acknowledge_srcHazard (s : State) : (acknowledge s).srcHazard = s.srcHazard := rfl
@[simp] theorem acknowledge_dstHazard (s : State) : (acknowledge s).dstHazard = s.dstHazard := rfl
@[simp] theorem acknowledge_draws (s : State) : (acknowledge s).draws = s.draws := rfl
@[simp] theorem acknowledge_readData (s : State) : (acknowledge s).readData = s.readData := rfl
@[simp] theorem acknowledge_inbox (s : State) : (acknowledge s).inbox = s.inbox := rfl

/-! ### storeSrc -/

@[simp] theorem storeSrc_pending (a : Nat) (v : Byte) (s : State) : (storeSrc a v s).pending = s.pending := rfl
@[simp] theorem storeSrc_done (a : Nat) (v : Byte) (s : State) : (storeSrc a v s).done = s.done := rfl
@[simp] theorem storeSrc_error (a : Nat) (v : Byte) (s : State) : (storeSrc a v s).error = s.error := rfl
@[simp] theorem storeSrc_lastOp (a : Nat) (v : Byte) (s : State) : (storeSrc a v s).lastOp = s.lastOp := rfl
@[simp] theorem storeSrc_freqValid (a : Nat) (v : Byte) (s : State) : (storeSrc a v s).freqValid = s.freqValid := rfl
@[simp] theorem storeSrc_irqEn (a : Nat) (v : Byte) (s : State) : (storeSrc a v s).irqEn = s.irqEn := rfl
@[simp] theorem storeSrc_srcLen (a : Nat) (v : Byte) (s : State) : (storeSrc a v s).srcLen = s.srcLen := rfl
@[simp] theorem storeSrc_outCap (a : Nat) (v : Byte) (s : State) : (storeSrc a v s).outCap = s.outCap := rfl
@[simp] theorem storeSrc_outLen (a : Nat) (v : Byte) (s : State) : (storeSrc a v s).outLen = s.outLen := rfl
@[simp] theorem storeSrc_payloadOff (a : Nat) (v : Byte) (s : State) : (storeSrc a v s).payloadOff = s.payloadOff := rfl
@[simp] theorem storeSrc_leafCnt (a : Nat) (v : Byte) (s : State) : (storeSrc a v s).leafCnt = s.leafCnt := rfl
@[simp] theorem storeSrc_freq (a : Nat) (v : Byte) (s : State) : (storeSrc a v s).freq = s.freq := rfl
@[simp] theorem storeSrc_tree (a : Nat) (v : Byte) (s : State) : (storeSrc a v s).tree = s.tree := rfl
@[simp] theorem storeSrc_dst (a : Nat) (v : Byte) (s : State) : (storeSrc a v s).dst = s.dst := rfl
@[simp] theorem storeSrc_dstFree (a : Nat) (v : Byte) (s : State) : (storeSrc a v s).dstFree = s.dstFree := rfl
@[simp] theorem storeSrc_dstHazard (a : Nat) (v : Byte) (s : State) : (storeSrc a v s).dstHazard = s.dstHazard := rfl
@[simp] theorem storeSrc_draws (a : Nat) (v : Byte) (s : State) : (storeSrc a v s).draws = s.draws := rfl
@[simp] theorem storeSrc_readData (a : Nat) (v : Byte) (s : State) : (storeSrc a v s).readData = s.readData := rfl
@[simp] theorem storeSrc_inbox (a : Nat) (v : Byte) (s : State) : (storeSrc a v s).inbox = s.inbox := rfl

/-! ### storeDst -/

@[simp] theorem storeDst_pending (a : Nat) (v : Byte) (s : State) : (storeDst a v s).pending = s.pending := rfl
@[simp] theorem storeDst_done (a : Nat) (v : Byte) (s : State) : (storeDst a v s).done = s.done := rfl
@[simp] theorem storeDst_error (a : Nat) (v : Byte) (s : State) : (storeDst a v s).error = s.error := rfl
@[simp] theorem storeDst_lastOp (a : Nat) (v : Byte) (s : State) : (storeDst a v s).lastOp = s.lastOp := rfl
@[simp] theorem storeDst_freqValid (a : Nat) (v : Byte) (s : State) : (storeDst a v s).freqValid = s.freqValid := rfl
@[simp] theorem storeDst_irqEn (a : Nat) (v : Byte) (s : State) : (storeDst a v s).irqEn = s.irqEn := rfl
@[simp] theorem storeDst_srcLen (a : Nat) (v : Byte) (s : State) : (storeDst a v s).srcLen = s.srcLen := rfl
@[simp] theorem storeDst_outCap (a : Nat) (v : Byte) (s : State) : (storeDst a v s).outCap = s.outCap := rfl
@[simp] theorem storeDst_outLen (a : Nat) (v : Byte) (s : State) : (storeDst a v s).outLen = s.outLen := rfl
@[simp] theorem storeDst_payloadOff (a : Nat) (v : Byte) (s : State) : (storeDst a v s).payloadOff = s.payloadOff := rfl
@[simp] theorem storeDst_leafCnt (a : Nat) (v : Byte) (s : State) : (storeDst a v s).leafCnt = s.leafCnt := rfl
@[simp] theorem storeDst_freq (a : Nat) (v : Byte) (s : State) : (storeDst a v s).freq = s.freq := rfl
@[simp] theorem storeDst_tree (a : Nat) (v : Byte) (s : State) : (storeDst a v s).tree = s.tree := rfl
@[simp] theorem storeDst_src (a : Nat) (v : Byte) (s : State) : (storeDst a v s).src = s.src := rfl
@[simp] theorem storeDst_dstFree (a : Nat) (v : Byte) (s : State) : (storeDst a v s).dstFree = s.dstFree := rfl
@[simp] theorem storeDst_srcHazard (a : Nat) (v : Byte) (s : State) : (storeDst a v s).srcHazard = s.srcHazard := rfl
@[simp] theorem storeDst_draws (a : Nat) (v : Byte) (s : State) : (storeDst a v s).draws = s.draws := rfl
@[simp] theorem storeDst_readData (a : Nat) (v : Byte) (s : State) : (storeDst a v s).readData = s.readData := rfl
@[simp] theorem storeDst_inbox (a : Nat) (v : Byte) (s : State) : (storeDst a v s).inbox = s.inbox := rfl

/-! ### loadDst -/

@[simp] theorem loadDst_pending (a : Nat) (s : State) : (loadDst a s).pending = s.pending := by unfold loadDst; split <;> rfl
@[simp] theorem loadDst_done (a : Nat) (s : State) : (loadDst a s).done = s.done := by unfold loadDst; split <;> rfl
@[simp] theorem loadDst_error (a : Nat) (s : State) : (loadDst a s).error = s.error := by unfold loadDst; split <;> rfl
@[simp] theorem loadDst_lastOp (a : Nat) (s : State) : (loadDst a s).lastOp = s.lastOp := by unfold loadDst; split <;> rfl
@[simp] theorem loadDst_freqValid (a : Nat) (s : State) : (loadDst a s).freqValid = s.freqValid := by unfold loadDst; split <;> rfl
@[simp] theorem loadDst_irqEn (a : Nat) (s : State) : (loadDst a s).irqEn = s.irqEn := by unfold loadDst; split <;> rfl
@[simp] theorem loadDst_srcLen (a : Nat) (s : State) : (loadDst a s).srcLen = s.srcLen := by unfold loadDst; split <;> rfl
@[simp] theorem loadDst_outCap (a : Nat) (s : State) : (loadDst a s).outCap = s.outCap := by unfold loadDst; split <;> rfl
@[simp] theorem loadDst_outLen (a : Nat) (s : State) : (loadDst a s).outLen = s.outLen := by unfold loadDst; split <;> rfl
@[simp] theorem loadDst_payloadOff (a : Nat) (s : State) : (loadDst a s).payloadOff = s.payloadOff := by unfold loadDst; split <;> rfl
@[simp] theorem loadDst_leafCnt (a : Nat) (s : State) : (loadDst a s).leafCnt = s.leafCnt := by unfold loadDst; split <;> rfl
@[simp] theorem loadDst_freq (a : Nat) (s : State) : (loadDst a s).freq = s.freq := by unfold loadDst; split <;> rfl
@[simp] theorem loadDst_tree (a : Nat) (s : State) : (loadDst a s).tree = s.tree := by unfold loadDst; split <;> rfl
@[simp] theorem loadDst_src (a : Nat) (s : State) : (loadDst a s).src = s.src := by unfold loadDst; split <;> rfl
@[simp] theorem loadDst_dst (a : Nat) (s : State) : (loadDst a s).dst = s.dst := by unfold loadDst; split <;> rfl
@[simp] theorem loadDst_dstFree (a : Nat) (s : State) : (loadDst a s).dstFree = s.dstFree := by unfold loadDst; split <;> rfl
@[simp] theorem loadDst_srcHazard (a : Nat) (s : State) : (loadDst a s).srcHazard = s.srcHazard := by unfold loadDst; split <;> rfl
@[simp] theorem loadDst_dstHazard (a : Nat) (s : State) : (loadDst a s).dstHazard = s.dstHazard := by unfold loadDst; split <;> rfl
@[simp] theorem loadDst_inbox (a : Nat) (s : State) : (loadDst a s).inbox = s.inbox := by unfold loadDst; split <;> rfl

/-! ### hostRead -/

@[simp] theorem hostRead_pending (off : Nat) (s : State) : (hostRead off s).pending = s.pending := by unfold hostRead; split <;> rfl
@[simp] theorem hostRead_done (off : Nat) (s : State) : (hostRead off s).done = s.done := by unfold hostRead; split <;> rfl
@[simp] theorem hostRead_error (off : Nat) (s : State) : (hostRead off s).error = s.error := by unfold hostRead; split <;> rfl
@[simp] theorem hostRead_lastOp (off : Nat) (s : State) : (hostRead off s).lastOp = s.lastOp := by unfold hostRead; split <;> rfl
@[simp] theorem hostRead_freqValid (off : Nat) (s : State) : (hostRead off s).freqValid = s.freqValid := by unfold hostRead; split <;> rfl
@[simp] theorem hostRead_irqEn (off : Nat) (s : State) : (hostRead off s).irqEn = s.irqEn := by unfold hostRead; split <;> rfl
@[simp] theorem hostRead_srcLen (off : Nat) (s : State) : (hostRead off s).srcLen = s.srcLen := by unfold hostRead; split <;> rfl
@[simp] theorem hostRead_outCap (off : Nat) (s : State) : (hostRead off s).outCap = s.outCap := by unfold hostRead; split <;> rfl
@[simp] theorem hostRead_outLen (off : Nat) (s : State) : (hostRead off s).outLen = s.outLen := by unfold hostRead; split <;> rfl
@[simp] theorem hostRead_payloadOff (off : Nat) (s : State) : (hostRead off s).payloadOff = s.payloadOff := by unfold hostRead; split <;> rfl
@[simp] theorem hostRead_leafCnt (off : Nat) (s : State) : (hostRead off s).leafCnt = s.leafCnt := by unfold hostRead; split <;> rfl
@[simp] theorem hostRead_freq (off : Nat) (s : State) : (hostRead off s).freq = s.freq := by unfold hostRead; split <;> rfl
@[simp] theorem hostRead_tree (off : Nat) (s : State) : (hostRead off s).tree = s.tree := by unfold hostRead; split <;> rfl
@[simp] theorem hostRead_src (off : Nat) (s : State) : (hostRead off s).src = s.src := by unfold hostRead; split <;> rfl
@[simp] theorem hostRead_dst (off : Nat) (s : State) : (hostRead off s).dst = s.dst := by unfold hostRead; split <;> rfl
@[simp] theorem hostRead_dstFree (off : Nat) (s : State) : (hostRead off s).dstFree = s.dstFree := by unfold hostRead; split <;> rfl
@[simp] theorem hostRead_srcHazard (off : Nat) (s : State) : (hostRead off s).srcHazard = s.srcHazard := by unfold hostRead; split <;> rfl
@[simp] theorem hostRead_dstHazard (off : Nat) (s : State) : (hostRead off s).dstHazard = s.dstHazard := by unfold hostRead; split <;> rfl
@[simp] theorem hostRead_inbox (off : Nat) (s : State) : (hostRead off s).inbox = s.inbox := by unfold hostRead; split <;> rfl

/-! ### spoilDst -/

@[simp] theorem spoilDst_pending (as : List Nat) (s : State) : (spoilDst as s).pending = s.pending := by
  induction as generalizing s with
  | nil => rfl
  | cons a as ih => exact ih (unspecifyDst a (a + 1) s)
@[simp] theorem spoilDst_done (as : List Nat) (s : State) : (spoilDst as s).done = s.done := by
  induction as generalizing s with
  | nil => rfl
  | cons a as ih => exact ih (unspecifyDst a (a + 1) s)
@[simp] theorem spoilDst_error (as : List Nat) (s : State) : (spoilDst as s).error = s.error := by
  induction as generalizing s with
  | nil => rfl
  | cons a as ih => exact ih (unspecifyDst a (a + 1) s)
@[simp] theorem spoilDst_lastOp (as : List Nat) (s : State) : (spoilDst as s).lastOp = s.lastOp := by
  induction as generalizing s with
  | nil => rfl
  | cons a as ih => exact ih (unspecifyDst a (a + 1) s)
@[simp] theorem spoilDst_freqValid (as : List Nat) (s : State) : (spoilDst as s).freqValid = s.freqValid := by
  induction as generalizing s with
  | nil => rfl
  | cons a as ih => exact ih (unspecifyDst a (a + 1) s)
@[simp] theorem spoilDst_irqEn (as : List Nat) (s : State) : (spoilDst as s).irqEn = s.irqEn := by
  induction as generalizing s with
  | nil => rfl
  | cons a as ih => exact ih (unspecifyDst a (a + 1) s)
@[simp] theorem spoilDst_srcLen (as : List Nat) (s : State) : (spoilDst as s).srcLen = s.srcLen := by
  induction as generalizing s with
  | nil => rfl
  | cons a as ih => exact ih (unspecifyDst a (a + 1) s)
@[simp] theorem spoilDst_outCap (as : List Nat) (s : State) : (spoilDst as s).outCap = s.outCap := by
  induction as generalizing s with
  | nil => rfl
  | cons a as ih => exact ih (unspecifyDst a (a + 1) s)
@[simp] theorem spoilDst_outLen (as : List Nat) (s : State) : (spoilDst as s).outLen = s.outLen := by
  induction as generalizing s with
  | nil => rfl
  | cons a as ih => exact ih (unspecifyDst a (a + 1) s)
@[simp] theorem spoilDst_payloadOff (as : List Nat) (s : State) : (spoilDst as s).payloadOff = s.payloadOff := by
  induction as generalizing s with
  | nil => rfl
  | cons a as ih => exact ih (unspecifyDst a (a + 1) s)
@[simp] theorem spoilDst_leafCnt (as : List Nat) (s : State) : (spoilDst as s).leafCnt = s.leafCnt := by
  induction as generalizing s with
  | nil => rfl
  | cons a as ih => exact ih (unspecifyDst a (a + 1) s)
@[simp] theorem spoilDst_freq (as : List Nat) (s : State) : (spoilDst as s).freq = s.freq := by
  induction as generalizing s with
  | nil => rfl
  | cons a as ih => exact ih (unspecifyDst a (a + 1) s)
@[simp] theorem spoilDst_tree (as : List Nat) (s : State) : (spoilDst as s).tree = s.tree := by
  induction as generalizing s with
  | nil => rfl
  | cons a as ih => exact ih (unspecifyDst a (a + 1) s)
@[simp] theorem spoilDst_src (as : List Nat) (s : State) : (spoilDst as s).src = s.src := by
  induction as generalizing s with
  | nil => rfl
  | cons a as ih => exact ih (unspecifyDst a (a + 1) s)
@[simp] theorem spoilDst_srcHazard (as : List Nat) (s : State) : (spoilDst as s).srcHazard = s.srcHazard := by
  induction as generalizing s with
  | nil => rfl
  | cons a as ih => exact ih (unspecifyDst a (a + 1) s)
@[simp] theorem spoilDst_dstHazard (as : List Nat) (s : State) : (spoilDst as s).dstHazard = s.dstHazard := by
  induction as generalizing s with
  | nil => rfl
  | cons a as ih => exact ih (unspecifyDst a (a + 1) s)
@[simp] theorem spoilDst_readData (as : List Nat) (s : State) : (spoilDst as s).readData = s.readData := by
  induction as generalizing s with
  | nil => rfl
  | cons a as ih => exact ih (unspecifyDst a (a + 1) s)
@[simp] theorem spoilDst_inbox (as : List Nat) (s : State) : (spoilDst as s).inbox = s.inbox := by
  induction as generalizing s with
  | nil => rfl
  | cons a as ih => exact ih (unspecifyDst a (a + 1) s)

/-! ### What they change -/

@[simp] theorem accept_pending (w : Word) (s : State) : (accept w s).pending = .running w := rfl
@[simp] theorem accept_done (w : Word) (s : State) : (accept w s).done = false := rfl
@[simp] theorem accept_error (w : Word) (s : State) : (accept w s).error = .none := rfl
@[simp] theorem accept_lastOp (w : Word) (s : State) : (accept w s).lastOp = w.extractLsb' 0 4 := rfl
@[simp] theorem accept_srcHazard (w : Word) (s : State) : (accept w s).srcHazard = false := rfl
@[simp] theorem accept_dstHazard (w : Word) (s : State) : (accept w s).dstHazard = [] := rfl
@[simp] theorem acknowledge_done (s : State) : (acknowledge s).done = false := rfl
@[simp] theorem acknowledge_error (s : State) : (acknowledge s).error = .none := rfl
@[simp] theorem unspecifyDst_dst (lo hi : Nat) (s : State) :
    (unspecifyDst lo hi s).dst = Memory.forget s.dst lo hi := rfl
@[simp] theorem unspecifyDst_dstFree (lo hi : Nat) (s : State) :
    (unspecifyDst lo hi s).dstFree = ⟨lo, hi, s.draws⟩ :: s.dstFree := rfl
@[simp] theorem unspecifyDst_draws (lo hi : Nat) (s : State) : (unspecifyDst lo hi s).draws = s.draws + 1 := rfl
@[simp] theorem unspecifyOutput_dst (o : Nat) (s : State) :
    (unspecifyOutput o s).dst = Memory.forget s.dst o s.outCap.toNat := rfl
@[simp] theorem unspecifyOutput_dstFree (o : Nat) (s : State) :
    (unspecifyOutput o s).dstFree = ⟨o, s.outCap.toNat, s.draws⟩ :: s.dstFree := rfl
@[simp] theorem unspecifyOutput_draws (o : Nat) (s : State) : (unspecifyOutput o s).draws = s.draws + 1 := rfl
@[simp] theorem storeSrc_src (a : Nat) (v : Byte) (s : State) : (storeSrc a v s).src = Memory.write s.src a v := rfl
@[simp] theorem storeDst_dst (a : Nat) (v : Byte) (s : State) : (storeDst a v s).dst = Memory.write s.dst a v := rfl

/-! ### Views that depend on few fields -/

theorem srcRead_congr {s t : State} (h : t.src = s.src) : srcRead t = srcRead s := by
  funext a; simp only [srcRead, h]

theorem dstRead_congr {s t : State} (h : t.dst = s.dst) (hf : t.dstFree = s.dstFree) : dstRead t = dstRead s := by
  funext a; simp only [dstRead, h, hf]

theorem srcBytes_congr {s t : State} (h : t.src = s.src) (hl : t.srcLen = s.srcLen) : srcBytes t = srcBytes s := by
  simp only [srcBytes, srcRead_congr h, hl]

theorem hbit_congr {s t : State} (h : t.src = s.src) : hbit t = hbit s := by
  funext i; simp only [hbit, srcRead_congr h]

theorem cbit_congr {s t : State} (h : t.src = s.src) (ho : t.payloadOff = s.payloadOff) : cbit t = cbit s := by
  funext i; simp only [cbit, srcRead_congr h, ho]

end Sys2Proof.Machine
end

