-- ==== Sys2Proof/Laws/Memory.lean ====
section
/-! SUPPORT. The laws of memory: reading after writing, forgetting, and that every operation keeps the canonical form. -/
namespace Sys2Proof.Machine

/-! ### Reading -/

theorem Memory.find_write (m : List Host.Cell) (a : Nat) (v : Byte) (b : Nat) :
    Memory.find (Memory.write m a v) b = if b = a then some v else Memory.find m b := by
  induction m with
  | nil => simp [Memory.write, Memory.find]
  | cons c m ih =>
    obtain ⟨k, w⟩ := c
    simp only [Memory.write]
    split
    · simp only [Memory.find]
    · split
      · rename_i h; subst h
        simp only [Memory.find]; split <;> rfl
      · simp only [Memory.find, ih]
        by_cases hk : b = k
        · subst hk; rw [if_pos rfl, if_neg (by omega), if_pos rfl]
        · rw [if_neg hk, if_neg hk]

theorem Memory.find_forget (m : List Host.Cell) (lo hi b : Nat) :
    Memory.find (Memory.forget m lo hi) b = if lo ≤ b ∧ b < hi then none else Memory.find m b := by
  induction m with
  | nil => simp [Memory.forget, Memory.find]
  | cons c m ih =>
    obtain ⟨k, w⟩ := c
    simp only [Memory.forget, List.filter_cons] at ih ⊢
    by_cases hk : k < lo ∨ hi ≤ k
    · rw [if_pos (by simpa using hk)]
      simp only [Memory.find, ih]
      by_cases hb : b = k
      · subst hb; rw [if_pos rfl, if_neg (by omega), if_pos rfl]
      · rw [if_neg hb, if_neg hb]
    · rw [if_neg (by simpa using hk), ih]
      simp only [Memory.find]
      by_cases hb : b = k
      · subst hb; rw [if_pos (by omega), if_pos (by omega)]
      · rw [if_neg hb]

/-! ### The canonical form -/

theorem Memory.mem_write {m : List Host.Cell} {a : Nat} {v : Byte} {c : Host.Cell} (h : c ∈ Memory.write m a v) :
    c = (a, v) ∨ c ∈ m := by
  induction m with
  | nil => simpa [Memory.write] using h
  | cons d m ih =>
    obtain ⟨k, w⟩ := d
    simp only [Memory.write] at h
    split at h
    · simpa using h
    · split at h
      · rcases List.mem_cons.mp h with h | h
        · exact .inl h
        · exact .inr (List.mem_cons_of_mem _ h)
      · rcases List.mem_cons.mp h with h | h
        · exact .inr (by simp [h])
        · rcases ih h with h | h
          · exact .inl h
          · exact .inr (List.mem_cons_of_mem _ h)

theorem Memory.write_rising {m : List Host.Cell} (a : Nat) (v : Byte) (hm : m.Pairwise (fun c d => c.1 < d.1)) :
    (Memory.write m a v).Pairwise (fun c d => c.1 < d.1) := by
  induction m with
  | nil => simp [Memory.write]
  | cons d m ih =>
    obtain ⟨k, w⟩ := d
    have hk : ∀ c ∈ m, k < c.1 := (List.pairwise_cons.mp hm).1
    simp only [Memory.write]
    split
    · rename_i hak
      refine List.pairwise_cons.mpr ⟨fun c hc => ?_, hm⟩
      rcases List.mem_cons.mp hc with hc | hc
      · subst hc; exact hak
      · exact Nat.lt_trans hak (hk c hc)
    · split
      · rename_i hak; subst hak
        exact List.pairwise_cons.mpr ⟨fun c hc => hk c hc, hm.of_cons⟩
      · refine List.pairwise_cons.mpr ⟨fun c hc => ?_, ih hm.of_cons⟩
        rcases Memory.mem_write hc with hc | hc
        · subst hc; show k < a; omega
        · exact hk c hc

theorem Memory.write_wf {m : List Host.Cell} (hm : Memory.wf m) (a : Nat) (v : Byte) (ha : a < Config.spaceBytes) :
    Memory.wf (Memory.write m a v) := by
  refine ⟨Memory.write_rising a v hm.1, fun c hc => ?_⟩
  rcases Memory.mem_write hc with hc | hc
  · subst hc; exact ha
  · exact hm.2 c hc

theorem Memory.forget_wf {m : List Host.Cell} (hm : Memory.wf m) (lo hi : Nat) : Memory.wf (Memory.forget m lo hi) :=
  ⟨hm.1.filter _, fun c hc => hm.2 c (List.mem_of_mem_filter hc)⟩

theorem Memory.writeBytes_wf {m : List Host.Cell} (hm : Memory.wf m) (o : Nat) (vs : List Byte)
    (h : o + vs.length ≤ Config.spaceBytes) : Memory.wf (Memory.writeBytes m o vs) := by
  induction vs generalizing m o with
  | nil => exact hm
  | cons v vs ih =>
    simp only [List.length_cons] at h
    exact ih (Memory.write_wf hm o v (by omega)) (o + 1) (by omega)

theorem Memory.nil_wf : Memory.wf [] := by simp [Memory.wf]

/-! ### Reading after a write of several bytes -/

theorem Memory.find_writeBytes (m : List Host.Cell) (o : Nat) (vs : List Byte) (b : Nat) :
    Memory.find (Memory.writeBytes m o vs) b = if o ≤ b ∧ b < o + vs.length then vs[b - o]? else Memory.find m b := by
  induction vs generalizing m o with
  | nil => simp [Memory.writeBytes]
  | cons v vs ih =>
    simp only [Memory.writeBytes, ih _ (o + 1), Memory.find_write m o v, List.length_cons]
    by_cases h0 : b = o
    · subst h0
      rw [if_neg (by omega), if_pos rfl, if_pos (by omega)]; simp
    · by_cases h1 : o + 1 ≤ b ∧ b < o + 1 + vs.length
      · obtain ⟨k, rfl⟩ : ∃ k, b = o + 1 + k := ⟨b - (o + 1), by omega⟩
        rw [if_pos h1, if_pos (by omega), show o + 1 + k - (o + 1) = k by omega,
          show o + 1 + k - o = k + 1 by omega, List.getElem?_cons_succ]
      · rw [if_neg h1, if_neg h0, if_neg (by omega)]

/-! ### The two memories -/

theorem dstRead_write (s : State) (a : Nat) (v : Byte) (b : Nat) :
    dstRead { s with dst := Memory.write s.dst a v } b = if b = a then v else dstRead s b := by
  simp only [dstRead, Memory.find_write s.dst a v]
  split <;> rfl

theorem srcRead_storeSrc (s : State) (a : Nat) (v : Byte) (b : Nat) :
    srcRead (storeSrc a v s) b = if b = a then v else srcRead s b := by
  simp only [srcRead, storeSrc_src, Memory.find_write s.src a v]
  split <;> rfl

theorem dstRead_unspecifyDst_outside (lo hi : Nat) (s : State) (b : Nat) (h : b < lo ∨ hi ≤ b) :
    dstRead (unspecifyDst lo hi s) b = dstRead s b := by
  have hb : ¬(lo ≤ b ∧ b < hi) := by omega
  simp only [dstRead, unspecifyDst_dst, unspecifyDst_dstFree, Memory.find_forget, if_neg hb, dstUnstored]
  rw [List.find?_cons_of_neg (by simp; omega)]

theorem dstRead_unspecifyDst_inside (lo hi : Nat) (s : State) (b : Nat) (h : lo ≤ b ∧ b < hi) :
    dstRead (unspecifyDst lo hi s) b = Config.freeByte s.draws b := by
  simp only [dstRead, unspecifyDst_dst, unspecifyDst_dstFree, Memory.find_forget, if_pos h, dstUnstored]
  rw [List.find?_cons_of_pos (by simp; omega)]
  rfl

theorem dstRead_unspecifyOutput_outside (o : Nat) (s : State) (b : Nat) (h : b < o ∨ s.outCap.toNat ≤ b) :
    dstRead (unspecifyOutput o s) b = dstRead s b :=
  dstRead_unspecifyDst_outside o s.outCap.toNat s b h

theorem dstRead_spoilDst (as : List Nat) (s : State) (b : Nat) (h : b ∉ as) : dstRead (spoilDst as s) b = dstRead s b := by
  induction as generalizing s with
  | nil => rfl
  | cons a as ih =>
    simp only [List.mem_cons, not_or] at h
    simp only [spoilDst]
    rw [ih _ h.2, dstRead_unspecifyDst_outside _ _ _ _ (by omega)]

theorem spoilDst_dst_wf (as : List Nat) (s : State) (h : Memory.wf s.dst) : Memory.wf (spoilDst as s).dst := by
  induction as generalizing s with
  | nil => exact h
  | cons a as ih => exact ih _ (Memory.forget_wf h a (a + 1))

theorem drawn_unspecifyDst (lo hi : Nat) (s : State) (h : ∀ r ∈ s.dstFree, r.draw < s.draws) :
    ∀ r ∈ (unspecifyDst lo hi s).dstFree, r.draw < (unspecifyDst lo hi s).draws := by
  intro r hr
  simp only [unspecifyDst_dstFree, List.mem_cons, unspecifyDst_draws] at hr ⊢
  rcases hr with rfl | hr
  · exact Nat.lt_succ_self _
  · exact Nat.lt_succ_of_lt (h r hr)

theorem drawn_spoilDst (as : List Nat) (s : State) (h : ∀ r ∈ s.dstFree, r.draw < s.draws) :
    ∀ r ∈ (spoilDst as s).dstFree, r.draw < (spoilDst as s).draws := by
  induction as generalizing s with
  | nil => exact h
  | cons a as ih => exact ih _ (drawn_unspecifyDst a (a + 1) s h)

end Sys2Proof.Machine
end

