-- ==== Sys2Proof/Laws/PerInstr.lean ====
section
/-! SUPPORT. A fact about every command as syntax: its word is legal (30_encoding.md R104). -/
namespace Sys2Proof.Laws.WordIsLegal

/-- The word of a command passes both checks of a legal word. -/
def Statement (i : Instr) : Prop := i.wellFormed = true ∧ wordLegal (encode i) = true

theorem clear : Statement .clear := ⟨rfl, by decide⟩
theorem count : Statement .count := ⟨rfl, by decide⟩
theorem build : Statement .build := ⟨rfl, by decide⟩
theorem serialize : Statement .serialize := ⟨rfl, by decide⟩
theorem deserialize : Statement .deserialize := ⟨rfl, by decide⟩
theorem encodePayload : Statement .encodePayload := ⟨rfl, by decide⟩
theorem decodePayload : Statement .decodePayload := ⟨rfl, by decide⟩
theorem encode : Statement .encode := ⟨rfl, by decide⟩
theorem decode : Statement .decode := ⟨rfl, by decide⟩

end Sys2Proof.Laws.WordIsLegal
end

