-- ==== Sys2Proof/Laws/Queue.lean ====
section
/-! SUPPORT. What the priority queue and the merge loop can do (40_tree.md R143 to R147). -/
namespace Sys2Proof.Machine

theorem before_iff (a b : Entry) : a.before b = true ↔ Precedes a b := by
  simp [Entry.before, Precedes]

/-- The order is total on entries of different sequence numbers. -/
theorem precedes_of_not {a b : Entry} (h : ¬ Precedes b a) (hs : a.seq ≠ b.seq) : Precedes a b := by
  unfold Precedes at *; omega

theorem precedes_trans {a b c : Entry} (h₁ : Precedes a b) (h₂ : Precedes b c) : Precedes a c := by
  unfold Precedes at *; omega

theorem extractMin_eq_none {q : List Entry} : extractMin q = none ↔ q = [] := by
  cases q with
  | nil => simp [extractMin]
  | cons e q =>
    simp only [extractMin, reduceCtorEq, iff_false]
    split
    · simp
    · split <;> simp

/-- `extractMin` takes one entry off and leaves the others, none of which precedes it. -/
theorem extractMin_some {q : List Entry} {m : Entry} {rest : List Entry} (h : extractMin q = some (m, rest)) :
    q.Perm (m :: rest) ∧ ∀ e ∈ rest, ¬ Precedes e m := by
  induction q generalizing m rest with
  | nil => simp [extractMin] at h
  | cons e q ih =>
    simp only [extractMin] at h
    split at h
    · rename_i hn
      rw [extractMin_eq_none] at hn
      cases h; subst hn
      exact ⟨List.Perm.refl _, by simp⟩
    · rename_i m' rest' hm
      obtain ⟨hp, hl⟩ := ih hm
      split at h
      · rename_i hb
        cases h
        rw [before_iff] at hb
        refine ⟨List.Perm.refl _, fun x hx hxe => ?_⟩
        have hx' := hp.mem_iff.mp hx
        rcases List.mem_cons.mp hx' with rfl | hx'
        · unfold Precedes at *; omega
        · exact hl x hx' (precedes_trans hxe hb)
      · rename_i hb
        cases h
        rw [before_iff] at hb
        refine ⟨(hp.cons e).trans (List.Perm.swap _ _ _), fun x hx => ?_⟩
        rcases List.mem_cons.mp hx with rfl | hx
        · exact hb
        · exact hl x hx

theorem extractMin_length {q : List Entry} {m : Entry} {rest : List Entry} (h : extractMin q = some (m, rest)) :
    q.length = rest.length + 1 := by simpa using (extractMin_some h).1.length_eq

/-- With distinct sequence numbers the entry taken off precedes all others. -/
theorem extractMin_least {q : List Entry} {m : Entry} {rest : List Entry} (h : extractMin q = some (m, rest))
    (hd : (q.map (·.seq)).Nodup) : ∀ e ∈ rest, Precedes m e := by
  obtain ⟨hp, hl⟩ := extractMin_some h
  intro e he
  have hn : ((m :: rest).map (·.seq)).Nodup := (hp.map _).nodup_iff.mp hd
  rw [List.map_cons, List.nodup_cons] at hn
  exact precedes_of_not (hl e he) fun hs => hn.1 (List.mem_map.mpr ⟨e, he, hs.symm⟩)

/-- The leaf values of the trees of a queue. -/
def queueLeaves (q : List Entry) : List Byte := q.flatMap fun e => e.tree.leaves

theorem queueLeaves_perm {q q' : List Entry} (h : q.Perm q') : (queueLeaves q).Perm (queueLeaves q') :=
  h.flatMap_right _

/-- The merge loop neither loses nor makes a leaf. -/
theorem mergeLoop_leaves (fuel next : Nat) (q : List Entry) :
    (queueLeaves (mergeLoop fuel next q)).Perm (queueLeaves q) := by
  induction fuel generalizing next q with
  | zero => exact List.Perm.refl _
  | succ fuel ih =>
    simp only [mergeLoop]
    split
    · exact List.Perm.refl _
    · rename_i a q₁ ha
      split
      · exact List.Perm.refl _
      · rename_i b q₂ hb
        refine (ih _ _).trans ?_
        have h₁ := queueLeaves_perm (extractMin_some ha).1
        have h₂ := queueLeaves_perm (extractMin_some hb).1
        refine List.Perm.trans ?_ h₁.symm
        have : queueLeaves (a :: q₁) = a.tree.leaves ++ queueLeaves q₁ := rfl
        rw [this]
        refine List.Perm.trans ?_ (h₂.symm.append_left _)
        show (List.Perm ((a.tree.leaves ++ b.tree.leaves) ++ queueLeaves q₂) (a.tree.leaves ++ (b.tree.leaves ++ queueLeaves q₂)))
        rw [List.append_assoc]

/-- With fuel for every merge the loop ends with one entry. -/
theorem mergeLoop_length (fuel next : Nat) (q : List Entry) (h : q.length ≤ fuel + 1) (hq : q ≠ []) :
    (mergeLoop fuel next q).length = 1 := by
  induction fuel generalizing next q with
  | zero =>
    have := List.length_pos_iff.mpr hq
    simp only [mergeLoop]; omega
  | succ fuel ih =>
    simp only [mergeLoop]
    split
    · rename_i hn; exact absurd (extractMin_eq_none.mp hn) hq
    · rename_i a q₁ ha
      have l₁ := extractMin_length ha
      split
      · rename_i hn
        rw [extractMin_eq_none] at hn
        subst hn; simpa using l₁
      · rename_i b q₂ hb
        have l₂ := extractMin_length hb
        exact ih _ _ (by simp only [List.length_cons]; omega) (by simp)

theorem mergeLoop_nil (fuel next : Nat) : mergeLoop fuel next [] = [] := by
  cases fuel <;> rfl

/-- The loop's result, as the relation `MergesTo` says it: from a queue of distinct sequence numbers below `next`, with fuel for
every merge, the loop ends with one entry, whose tree the queue merges to. -/
theorem mergeLoop_mergesTo (fuel next : Nat) (q : List Entry) (h : q.length ≤ fuel + 1) (hq : q ≠ [])
    (hd : (q.map (·.seq)).Nodup) (hlt : ∀ e ∈ q, e.seq < next) :
    ∃ e, mergeLoop fuel next q = [e] ∧ MergesTo next q e.tree := by
  induction fuel generalizing next q with
  | zero =>
    match q, hq with
    | [e], _ => exact ⟨e, rfl, .root next e⟩
    | _ :: _ :: _, _ => simp at h
  | succ fuel ih =>
    cases ha : extractMin q with
    | none => exact absurd (extractMin_eq_none.mp ha) hq
    | some p =>
      obtain ⟨a, q₁⟩ := p
      have pa := (extractMin_some ha).1
      have da : ((a :: q₁).map (·.seq)).Nodup := (pa.map _).nodup_iff.mp hd
      cases hb : extractMin q₁ with
      | none =>
        rw [extractMin_eq_none] at hb
        subst hb
        have := List.perm_singleton.mp pa
        subst this
        refine ⟨a, ?_, .root next a⟩
        simp [mergeLoop, extractMin]
      | some p =>
        obtain ⟨b, q₂⟩ := p
        have pb := (extractMin_some hb).1
        have db : ((b :: q₂).map (·.seq)).Nodup := (pb.map _).nodup_iff.mp da.of_cons
        have perm : q.Perm (a :: b :: q₂) := pa.trans (pb.cons a)
        obtain ⟨e, he, hm⟩ := ih (next + 1) (mergeEntries next a b :: q₂)
          (by have := perm.length_eq; simp only [List.length_cons] at *; omega) (by simp)
          (by
            rw [List.map_cons, List.nodup_cons]
            refine ⟨fun hmem => ?_, db.of_cons⟩
            obtain ⟨x, hx, hxs⟩ := List.mem_map.mp hmem
            have := hlt x (perm.mem_iff.mpr (by simp [hx]))
            simp only [mergeEntries] at hxs; omega)
          (by
            intro x hx
            rcases List.mem_cons.mp hx with rfl | hx
            · simp [mergeEntries]
            · have := hlt x (perm.mem_iff.mpr (by simp [hx])); omega)
        refine ⟨e, by simp only [mergeLoop, ha, hb, he], .merge perm (fun x hx => ?_) (extractMin_least hb da.of_cons) hm⟩
        exact extractMin_least ha hd x (pb.mem_iff.mpr hx)

end Sys2Proof.Machine
end

