-- ==== Sys2Proof/Laws/Run.lean ====
section
/-! SUPPORT. What the shared operations over runs can do: composing steps, appending output, completing. -/
namespace Sys2Proof.Machine

@[simp] theorem succeed_state (s : State) : (succeed s).state = s := rfl
@[simp] theorem succeed_error (s : State) : (succeed s).error = .none := rfl
@[simp] theorem raise_state (e : ErrorCode) (s : State) : (raise e s).state = s := rfl
@[simp] theorem raise_error (e : ErrorCode) (s : State) : (raise e s).error = e := rfl

theorem andThen_of_none {r : Run} (h : r.error = .none) (f : State → Run) : r.andThen f = f r.state := if_pos h

theorem andThen_of_error {r : Run} (h : r.error ≠ .none) (f : State → Run) : r.andThen f = r := if_neg h

theorem partialOutput_of_true {p : ErrorCode → Bool} {r : Run} (h : p r.error = true) (o : Nat) :
    r.partialOutput p o = ⟨unspecifyOutput o r.state, r.error⟩ := if_pos h

theorem partialOutput_of_false {p : ErrorCode → Bool} {r : Run} (h : p r.error = false) (o : Nat) :
    r.partialOutput p o = r := if_neg (by simp [h])

@[simp] theorem partialOutput_error (p : ErrorCode → Bool) (o : Nat) (r : Run) : (r.partialOutput p o).error = r.error := by
  unfold Run.partialOutput; split <;> rfl

/-- What `append` does where the output fits, and where it does not (20_memory.md R74). -/
theorem append_cases (out : List Byte) (s : State) :
    (s.outLen.toNat + out.length ≤ s.outCap.toNat ∧
      append out s = succeed { s with
        dst := Memory.writeBytes s.dst s.outLen.toNat out
        outLen := BitVec.ofNat 32 (s.outLen.toNat + out.length) }) ∨
    (s.outCap.toNat < s.outLen.toNat + out.length ∧ append out s = raise .ioError s) := by
  unfold append
  split
  · exact .inl ⟨‹_›, rfl⟩
  · exact .inr ⟨by omega, rfl⟩

/-- The bytes of DST after an append, and OUT_LEN. -/
theorem append_fits (out : List Byte) (s : State)
    (h : s.outLen.toNat + out.length ≤ s.outCap.toNat) :
    (append out s).error = .none ∧ (append out s).state.outLen.toNat = s.outLen.toNat + out.length ∧
      ∀ a, dstRead (append out s).state a =
        if s.outLen.toNat ≤ a ∧ a < s.outLen.toNat + out.length then out.getD (a - s.outLen.toNat) 0#8
        else dstRead s a := by
  rcases append_cases out s with ⟨_, e⟩ | ⟨hlt, _⟩
  · rw [e]
    refine ⟨rfl, ?_, fun a => ?_⟩
    · have := s.outCap.isLt
      simp only [succeed_state, BitVec.toNat_ofNat]
      omega
    · simp only [succeed_state, dstRead, Memory.find_writeBytes s.dst _ out]
      split
      · rename_i ha
        have hk : a - s.outLen.toNat < out.length := by omega
        simp [List.getD_eq_getElem?_getD, List.getElem?_eq_getElem hk]
      · rfl
  · omega

/-- Where the host kept its duty, completion applies the run and records its result (43_operations.md R239). -/
theorem finish_undisturbed {s : State} (h : Undisturbed s) (w : Written) (o : Nat) (r : Run) :
    finish w o s r = { r.state with
      pending := .idle, done := true, error := r.error, srcHazard := false, dstHazard := [] } := by
  obtain ⟨h1, h2⟩ := h
  simp only [finish, h1, h2, spoilDst]
  rfl

@[simp] theorem finish_pending (w : Written) (o : Nat) (s : State) (r : Run) : (finish w o s r).pending = .idle := rfl
@[simp] theorem finish_done (w : Written) (o : Nat) (s : State) (r : Run) : (finish w o s r).done = true := rfl
@[simp] theorem finish_srcHazard (w : Written) (o : Nat) (s : State) (r : Run) : (finish w o s r).srcHazard = false := rfl
@[simp] theorem finish_dstHazard (w : Written) (o : Nat) (s : State) (r : Run) : (finish w o s r).dstHazard = [] := rfl

/-- Whether or not the source was disturbed, completion is that of one run with the spoilt DST bytes taken out. -/
theorem finish_eq (w : Written) (o : Nat) (s : State) (r : Run) :
    ∃ r' : Run, (r' = r ∧ s.srcHazard = false ∨ r' = unstableRun w o s ∧ s.srcHazard = true) ∧
      finish w o s r = { spoilDst s.dstHazard r'.state with
        pending := .idle, done := true, error := r'.error, srcHazard := false, dstHazard := [] } := by
  cases h : s.srcHazard
  · exact ⟨r, .inl ⟨rfl, rfl⟩, by simp only [finish, h]; rfl⟩
  · exact ⟨unstableRun w o s, .inr ⟨rfl, rfl⟩, by simp only [finish, h]; rfl⟩

/-- The tree of a disturbed run is none or well-formed. -/
theorem freeTree_wf {n : Nat} {t : CodeTree} (h : freeTree n = some t) : t.wf := by
  unfold freeTree at h
  split at h
  · split at h
    · cases h; assumption
    · cases h
  · cases h

end Sys2Proof.Machine
end

