-- ==== Sys2Proof/Laws/Step.lean ====
section
/-! SUPPORT. What one step can do, said once. -/
namespace Sys2Proof.Machine

/-- Every meaning is the completion of a run of its command. -/
theorem exec_eq_finish (i : Instr) (s : State) : ∃ w o r, exec i s = .next (finish w o s r) := by
  cases i <;> exact ⟨_, _, _, rfl⟩

/-- What the core's turn answers: nothing where it is idle, else the completion of the running word. -/
theorem coreTurn_cases (s : State) :
    (s.pending = .idle ∧ coreTurn s = .next s) ∨
    (∃ w i, s.pending = .running w ∧ decode w = .ok i ∧ coreTurn s = exec i s) ∨
    (∃ w e, s.pending = .running w ∧ decode w = .error e ∧ coreTurn s = .next (finishIllegal s)) := by
  unfold coreTurn
  split
  · exact .inl ⟨‹_›, rfl⟩
  · rename_i w hw
    cases hd : decode w with
    | ok i => exact .inr (.inl ⟨w, i, hw, hd, rfl⟩)
    | error e => exact .inr (.inr ⟨w, e, hw, hd, rfl⟩)

/-- What a legal window access answers. -/
theorem windowAccess_next {off size : Nat} {f : State → State} {s t : State} (h : windowAccess off size f s = .next t) :
    off < Config.windowBytes ∧ size = 4 ∧ off % 4 = 0 ∧ t = f s := by
  unfold windowAccess at h
  split at h
  · cases h
  · split at h
    · cases h; exact ⟨by omega, by tauto⟩
    · cases h

/-- What an access inside a memory space answers. -/
theorem spaceAccess_next {a : Nat} {f : State → State} {s t : State} (h : spaceAccess a f s = .next t) :
    a < Config.spaceBytes ∧ t = f s := by
  unfold spaceAccess at h
  split at h
  · cases h; exact ⟨‹_›, rfl⟩
  · cases h

/-- The state a host action leads to. -/
theorem hostAction_next {e : HostAction} {s t : State} (h : hostAction e s = .next t) :
    (∃ off v, e = .write off 4 v ∧ off % 4 = 0 ∧ off < Config.windowBytes ∧ t = hostWrite off v s) ∨
    (∃ off, e = .read off 4 ∧ off % 4 = 0 ∧ off < Config.windowBytes ∧ t = hostRead off s) ∨
    (∃ a v, e = .storeSrc a v ∧ a < Config.spaceBytes ∧ t = storeSrc a v s) ∨
    (∃ a v, e = .storeDst a v ∧ a < Config.spaceBytes ∧ t = storeDst a v s) ∨
    (∃ a, e = .loadDst a ∧ a < Config.spaceBytes ∧ t = loadDst a s) := by
  cases e with
  | write off size v =>
    obtain ⟨h1, rfl, h3, h4⟩ := windowAccess_next h
    exact .inl ⟨off, v, rfl, h3, h1, h4⟩
  | read off size =>
    obtain ⟨h1, rfl, h3, h4⟩ := windowAccess_next h
    exact .inr (.inl ⟨off, rfl, h3, h1, h4⟩)
  | storeSrc a v => exact .inr (.inr (.inl ⟨a, v, rfl, spaceAccess_next h⟩))
  | storeDst a v => exact .inr (.inr (.inr (.inl ⟨a, v, rfl, spaceAccess_next h⟩)))
  | loadDst a => exact .inr (.inr (.inr (.inr ⟨a, rfl, spaceAccess_next h⟩)))

/-- The next state of a step: it is that of the core's turn, of a host action or of a reset, with the event taken off. -/
theorem step_next {s t : State} (h : step s = .next t) :
    (s.inbox = [] ∧ coreTurn s = .next t) ∨
    (∃ es, s.inbox = .core :: es ∧ coreTurn { s with inbox := es } = .next t) ∨
    (∃ e es, s.inbox = .host e :: es ∧ hostAction e { s with inbox := es } = .next t) ∨
    (∃ es, s.inbox = .reset :: es ∧ t = resetCore { s with inbox := es }) := by
  unfold step at h
  split at h
  · exact .inl ⟨‹_›, h⟩
  · exact .inr (.inl ⟨_, ‹_›, h⟩)
  · exact .inr (.inr (.inl ⟨_, _, ‹_›, h⟩))
  · cases h; exact .inr (.inr (.inr ⟨_, ‹_›, rfl⟩))

end Sys2Proof.Machine
end

