-- ==== Sys2Proof/Tests/Slice0.lean ====
section
/-! SUPPORT. The model's own tests: well-formedness, decoding, the spec's vectors (spec/95_test_vectors.md), one step each, and
for every statement with hypotheses a state and operands that meet them. -/
namespace Sys2Proof.Tests
set_option Elab.async false
open Sys2Proof Sys2Proof.Machine

/-! ### Helpers -/

/-- Bytes at offsets 0, 1, ... -/
def cells (bytes : List Nat) : List Host.Cell := bytes.zipIdx.map fun (b, i) => (i, BitVec.ofNat 8 b)

/-- A reset core with SRC holding the bytes, SRC_LEN their number and OUT_CAP 16. -/
def withSrc (bytes : List Nat) : State :=
  { State.reset with src := cells bytes, srcLen := BitVec.ofNat 32 bytes.length, outCap := 16#32 }

/-- The tree Node(41, Node(42, 43)) of 40_tree.md R153. -/
def abc : CodeTree := .node (.leaf 0x41#8) (.node (.leaf 0x42#8) (.leaf 0x43#8))

/-- The file of 95_test_vectors.md 1.1. -/
def abcFile : State := withSrc [0x03, 0x0A, 0x2A, 0x54, 0x18, 0x74, 0x02]

/-- What a step from the accepted command leaves, as far as a test looks at it. -/
def after (i : Instr) (s : State) (f : State → Bool) : Bool :=
  match step (s.withFetchWord 32 (Sys2Proof.encode i).toNat) with
  | .next t => f t
  | _ => false

/-- DST holds the bytes from offset 0 on, and OUT_LEN is their number. -/
def outIs (bytes : List Nat) (t : State) : Bool :=
  t.outLen.toNat == bytes.length && (List.range bytes.length).map (fun a => (dstRead t a).toNat) == bytes

/-! ### Well-formedness: each check refuses an ill-formed word -/

theorem test_wellFormed_reserved : wordLegal 0x00000012#32 = false ∧ reservedClear 0x80000002#32 = false := by decide
theorem test_wellFormed_opcode : opAssigned 0x0#32 = false ∧ opAssigned 0xA#32 = false ∧ opAssigned 0xF#32 = false := by
  decide
theorem test_wellFormed_accepts : wordLegal 0x1#32 = true ∧ wordLegal 0x9#32 = true := by decide

/-! ### Decoding: every word written out from 30_encoding.md R100 and R102 -/

theorem test_decode_clear : decode 0b00000000000000000000000000000001#32 = .ok .clear := by rfl
theorem test_decode_count : decode 0b00000000000000000000000000000010#32 = .ok .count := by rfl
theorem test_decode_build : decode 0b00000000000000000000000000000011#32 = .ok .build := by rfl
theorem test_decode_serialize : decode 0b00000000000000000000000000000100#32 = .ok .serialize := by rfl
theorem test_decode_deserialize : decode 0b00000000000000000000000000000101#32 = .ok .deserialize := by rfl
theorem test_decode_encodePayload : decode 0b00000000000000000000000000000110#32 = .ok .encodePayload := by rfl
theorem test_decode_decodePayload : decode 0b00000000000000000000000000000111#32 = .ok .decodePayload := by rfl
theorem test_decode_encode : decode 0b00000000000000000000000000001000#32 = .ok .encode := by rfl
theorem test_decode_decode : decode 0b00000000000000000000000000001001#32 = .ok .decode := by rfl
theorem test_decode_rejects : decode 0x00000012#32 = .error .reservedBits ∧
    decode 0x0000000C#32 = .error (.unassigned 12) ∧ decode 0x00000000#32 = .error (.unassigned 0) := ⟨rfl, rfl, rfl⟩

/-! ### The spec's vectors (95_test_vectors.md sections 2 and 3) -/

/-- P3: COUNT of ABABABAB. -/
theorem test_count : after .count (withSrc [0x41, 0x42, 0x41, 0x42, 0x41, 0x42, 0x41, 0x42]) (fun t =>
    statusWord t == 0x00001202#32 && freqAt t.freq 0x41#8 == 4#32 && freqAt t.freq 0x42#8 == 4#32 && t.leafCnt == 2)
    = true := by decide +kernel

/-- 2.2: BUILD of 41:2, 42:1, 43:1. -/
theorem test_build : after .build { State.reset with
      freqValid := true, freq := countTable [0x41#8, 0x41#8, 0x42#8, 0x43#8] }
    (fun t => t.tree == some abc && t.leafCnt == 3 && regValue t (.codeBits 0x43#8 0) == 3#32) = true := by decide +kernel

/-- P7: BUILD right after reset. -/
theorem test_build_sequence : after .build State.reset (fun t => statusWord t == 0x00000376#32) = true := by
  decide +kernel

/-- 2.3: SERIALIZE of Node(41, Node(42, 43)). -/
theorem test_serialize : after .serialize { State.reset with tree := some abc, outCap := 5#32 }
    (outIs [0x03, 0x0A, 0x2A, 0x54, 0x18]) = true := by decide +kernel

/-- 2.3: the same with OUT_CAP = 4 is IO_ERROR. -/
theorem test_serialize_full : after .serialize { State.reset with tree := some abc, outCap := 4#32 }
    (fun t => t.error == .ioError) = true := by decide +kernel

/-- 2.4: DESERIALIZE, with the header padding set. -/
theorem test_deserialize : after .deserialize (withSrc [0x03, 0x0A, 0x2A, 0x54, 0xF8, 0x74, 0x02])
    (fun t => t.tree == some abc && t.leafCnt == 3 && t.payloadOff == 5#32) = true := by decide +kernel

/-- 2.4: a repeated leaf value, check (d). -/
theorem test_deserialize_repeat : after .deserialize (withSrc [0x02, 0x0A, 0x16, 0x04, 0x02, 0x06])
    (fun t => t.error == .corruptHeader && t.tree == none) = true := by decide +kernel

/-- 2.5: ENCODE_PAYLOAD of AABC. -/
theorem test_encodePayload : after .encodePayload { withSrc [0x41, 0x41, 0x42, 0x43] with tree := some abc }
    (outIs [0x74, 0x02]) = true := by decide +kernel

/-- 2.5: no marker where N is a multiple of 8. -/
theorem test_encodePayload_full : after .encodePayload
    { withSrc [0x41, 0x42, 0x41, 0x42, 0x41, 0x42, 0x41, 0x42] with tree := some (.node (.leaf 0x41#8) (.leaf 0x42#8)) }
    (outIs [0xAA, 0x00]) = true := by decide +kernel

/-- 2.6: DECODE_PAYLOAD of a payload at offset 0. -/
theorem test_decodePayload : after .decodePayload { withSrc [0x74, 0x02] with tree := some abc }
    (outIs [0x41, 0x41, 0x42, 0x43]) = true := by decide +kernel

/-- 2.6: a 1 bit under a one-leaf tree. -/
theorem test_decodePayload_leaf : after .decodePayload
    { withSrc [0x01, 0x05, 0x01, 0x09, 0x05] with tree := some (.leaf 0x41#8), payloadOff := 3#32 }
    (fun t => t.error == .corruptPayload) = true := by decide +kernel

/-- 2.7, E9: ENCODE of abracadabra. -/
theorem test_encode : after .encode (withSrc [0x61, 0x62, 0x72, 0x61, 0x63, 0x61, 0x64, 0x61, 0x62, 0x72, 0x61])
    (outIs [0x05, 0x1A, 0xD2, 0xB8, 0x89, 0x46, 0x9D, 0x00, 0x76, 0x51, 0xBB, 0x01]) = true := by decide +kernel

/-- P7: ENCODE of an empty source. -/
theorem test_encode_empty : after .encode (withSrc []) (fun t => statusWord t == 0x00001856#32) = true := by
  decide +kernel

/-- P2: DECODE of the file of P1. -/
theorem test_decode : after .decode abcFile (fun t => statusWord t == 0x00002902#32 && t.payloadOff == 5#32 &&
    t.leafCnt == 3 && outIs [0x41, 0x41, 0x42, 0x43] t) = true := by decide +kernel

/-- P5: a corrupt trailer, with the interrupt enabled. -/
theorem test_decode_trailer : after .decode
    { withSrc [0x03, 0x0A, 0x2A, 0x54, 0x18, 0x74, 0x09] with irqEn := true }
    (fun t => statusWord t == 0x00006936#32) = true := by decide +kernel

/-- 2.8: CLEAR keeps SRC_LEN and OUT_CAP and empties the tables. -/
theorem test_clear : after .clear { withSrc [0x41, 0x41, 0x42, 0x43] with tree := some abc, leafCnt := 3, outLen := 7#32 }
    (fun t => statusWord t == 0x00000102#32 && t.srcLen == 4#32 && t.outCap == 16#32 && t.outLen == 0#32 &&
      t.leafCnt == 0) = true := by decide +kernel

/-- P6: an illegal word. -/
theorem test_illegal : (match step (accept 0x00000012#32 State.reset) with
    | .next t => statusWord t == 0x00000266#32
    | _ => false) = true := by decide +kernel

/-! ### Hypotheses that are met -/

/-- A core in which the word w runs. -/
def running (w : Word) : State := accept w State.reset

theorem abc_wf : abc.wf := by decide

theorem reset_undisturbed : Undisturbed State.reset := ⟨rfl, rfl⟩
theorem withSrc_undisturbed (bytes : List Nat) : Undisturbed (withSrc bytes) := ⟨rfl, rfl⟩

/-- EncodeThenDecodeIsIdentity. -/
theorem witness_wellFormed : Instr.wellFormed .decode = true := rfl

/-- IllegalWordCompletesWithItsCode: each clause, at the ends of its range. -/
theorem witness_illegal : State.reset.inbox = [] ∧ (0x10#32 : Word).extractLsb' 4 28 ≠ 0#28 ∧
    (0x80000001#32 : Word).extractLsb' 4 28 ≠ 0#28 ∧ (0#32 : Word).extractLsb' 0 4 = 0#4 ∧
    10 ≤ ((0xA#32 : Word).extractLsb' 0 4).toNat ∧ 10 ≤ ((0xF#32 : Word).extractLsb' 0 4).toNat := by decide

/-- ResetLeavesTheSpecValues, IdleCoreDoesNothing, HostReadRules, HostWriteRules, InterruptFollowsDoneAndEnable: an idle core, with
and without a turn to come. -/
theorem witness_idle : State.reset.pending = .idle ∧ State.reset.inbox = [] ∧
    { State.reset with inbox := [.core] }.inbox = .core :: [] := ⟨rfl, rfl, rfl⟩

/-- ResetAbortsTheRunningCommand, BusyReadRules, RunningCommandKeepsItsOperands: a running core, and host actions it takes. -/
theorem witness_running : (running 0x9#32).pending = .running 0x9#32 ∧
    (∃ t, hostAction (.write 0x000 4 1#32) (running 0x9#32) = .next t) ∧
    (∃ t, hostAction (.write 0x3FFC 4 1#32) (running 0x9#32) = .next t) ∧
    (∃ t, hostAction (.read 0x3FFC 4) (running 0x9#32) = .next t) ∧
    (∃ t, hostAction (.storeSrc 0 1#8) (running 0x9#32) = .next t) ∧
    (∃ t, hostAction (.storeDst (2 ^ 32 - 1) 1#8) (running 0x9#32) = .next t) ∧
    (∃ t, hostAction (.loadDst 0) (running 0x9#32) = .next t) :=
  ⟨rfl, ⟨_, rfl⟩, ⟨_, rfl⟩, ⟨_, rfl⟩, ⟨_, rfl⟩, ⟨_, rfl⟩, ⟨_, rfl⟩⟩

/-- StepRunsTheDecodedCommand and StepTakesTheNextEvent. -/
theorem witness_step : (running 0x2#32).pending = .running 0x2#32 ∧ decode 0x2#32 = .ok .count ∧
    (running 0x2#32).inbox = [] ∧ { running 0x2#32 with inbox := [.core] }.inbox = .core :: [] ∧
    { running 0x2#32 with inbox := [.host (.loadDst 0)] }.inbox = .host (.loadDst 0) :: [] ∧
    { running 0x2#32 with inbox := [.reset] }.inbox = .reset :: [] := ⟨rfl, rfl, rfl, rfl, rfl, rfl⟩

/-- HostWriteRules: the ends of the ignored range. -/
theorem witness_ignored : 0x01C ≤ 0x01C ∧ 0x01C ≤ 0x3FFC ∧ 0x3FFC < 0x4000 ∧ 0x3FFC % 4 = 0 := by decide

/-- HostReadRules: every read it names answers, and its bounds on LEAFCNT and on a code's length are met. -/
theorem witness_reads : (∀ off ∈ [0x000, 0x004, 0x008, 0x00C, 0x010, 0x014, 0x018, 0x01C, 0x400, 0x7FC, 0x800, 0xBFC],
      hostAction (.read off 4) State.reset = .next (hostRead off State.reset)) ∧
    State.reset.leafCnt ≤ 256 ∧ (codeOf (some abc) 0x43#8).length ≤ 255 := by
  refine ⟨fun off h => ?_, by decide, by decide⟩
  simp only [List.mem_cons, List.mem_nil_iff, or_false] at h
  rcases h with rfl | rfl | rfl | rfl | rfl | rfl | rfl | rfl | rfl | rfl | rfl | rfl <;> rfl

/-- CodeBitsReadTheCode: the last word, and a bit of it. -/
theorem witness_codeBits : State.reset.pending = .idle ∧ 7 < 8 ∧ 31 < 32 := by decide

/-- ReservedOffsetsReadZero: the ends of the three ranges, and an offset outside the window. -/
theorem witness_reserved : (∀ off ∈ [0x020, 0x3FC, 0xC00, 0xFFC, 0x3000, 0x3FFC], off % 4 = 0 ∧
      ((0x020 ≤ off ∧ off ≤ 0x3FC) ∨ (0xC00 ≤ off ∧ off ≤ 0xFFC) ∨ (0x3000 ≤ off ∧ off ≤ 0x3FFC))) ∧
    0x4000 ≤ 0x4000 := by decide

/-- UnalignedAccessesAreRefused: both clauses, at the end of the window. -/
theorem witness_unaligned : (0x3FFF < 0x4000 ∧ 0x3FFF % 4 ≠ 0) ∧ (0x3FFC < 0x4000 ∧ (1 : Nat) ≠ 4) := by decide

/-- HostStoresReachOneByte: both sides of the bound. -/
theorem witness_spaces : 2 ^ 32 ≤ 2 ^ 32 ∧ 2 ^ 32 - 1 < 2 ^ 32 ∧ State.reset.pending = .idle := by decide

/-- HostActionsLeaveTheTables: an action of each kind answers. -/
theorem witness_actions : ∀ e ∈ [HostAction.write 0 4 1#32, .read 4 4, .storeSrc 0 1#8, .storeDst 0 1#8, .loadDst 0],
    ∃ t, hostAction e State.reset = .next t := by
  intro e h
  simp only [List.mem_cons, List.mem_nil_iff, or_false] at h
  rcases h with rfl | rfl | rfl | rfl | rfl <;> exact ⟨_, rfl⟩

/-- InterruptFollowsDoneAndEnable: every command and every write it names answers. -/
theorem witness_interrupt : (∀ i, ∃ t, exec i State.reset = .next t) ∧
    (∃ t, hostAction (.write 0x008 4 1#32) State.reset = .next t) ∧
    (∃ t, hostAction (.write 0x004 4 2#32) State.reset = .next t ∧ (2#32 : Word).getLsbD 1 = true) ∧
    (∃ t, hostAction (.write 0x000 4 1#32) State.reset = .next t) :=
  ⟨fun i => by cases i <;> exact ⟨_, rfl⟩, ⟨_, rfl⟩, ⟨_, rfl, rfl⟩, ⟨_, rfl⟩⟩

/-- ClearEmptiesTheTables, CountCountsTheSource, CountsSumToSourceLength. -/
theorem witness_count : Undisturbed (withSrc [0x41, 0x41]) ∧ ∃ t, exec .count (withSrc [0x41, 0x41]) = .next t :=
  ⟨withSrc_undisturbed _, _, rfl⟩

/-- BuildMergesTheLeast and BuiltTreeHasOneLeafPerValue. -/
theorem witness_build : Undisturbed { State.reset with freqValid := true, freq := countTable [0x41#8] } ∧
    freqAt (countTable [0x41#8]) 0x41#8 ≠ 0#32 ∧ presentValues (countTable [0x41#8]) ≠ 0 :=
  ⟨⟨rfl, rfl⟩, by decide +kernel, by decide +kernel⟩

/-- BuildErrors: both clauses. -/
theorem witness_buildErrors : Undisturbed State.reset ∧ State.reset.freqValid = false ∧
    Undisturbed { State.reset with freqValid := true } ∧ (∀ v, freqAt State.reset.freq v = 0#32) :=
  ⟨⟨rfl, rfl⟩, rfl, ⟨rfl, rfl⟩, fun v => by simp [freqAt, State.reset]⟩

/-- CodesArePrefixFree and CodesBelongToTheLeaves: both clauses. -/
theorem witness_codes : abc.wf ∧ 0x41#8 ∈ abc.leaves ∧ 0x43#8 ∈ abc.leaves ∧ (0x41#8 : Byte) ≠ 0x43#8 ∧
    0x44#8 ∉ abc.leaves := by decide

/-- SerializeWritesTheHeader where the header just fits, and SerializeErrors: both clauses. -/
theorem witness_serialize :
    (Undisturbed { State.reset with tree := some abc, outCap := 5#32 } ∧ 0 + 1 + hdrBytes abc.leafCount ≤ 5) ∧
    (Undisturbed State.reset ∧ State.reset.tree = none) ∧
    (Undisturbed { State.reset with tree := some abc, outCap := 4#32 } ∧ 4 < 0 + 1 + hdrBytes abc.leafCount) :=
  ⟨⟨⟨rfl, rfl⟩, by decide⟩, ⟨⟨rfl, rfl⟩, rfl⟩, ⟨⟨rfl, rfl⟩, by decide⟩⟩

/-- DeserializeInstallsTheTree. -/
theorem witness_sourceHeader : Undisturbed abcFile ∧ SourceHeader abcFile abc := by
  refine ⟨withSrc_undisturbed _, abc_wf, ?_, ?_, ?_⟩ <;> decide +kernel

/-- DeserializeRejectsTheRest and the first clause of DecodeErrors: an empty source. -/
theorem witness_noHeader : Undisturbed State.reset ∧ ∀ tr, ¬ SourceHeader State.reset tr := by
  refine ⟨reset_undisturbed, fun tr h => ?_⟩
  have : (1 : Nat) + hdrBytes tr.leafCount ≤ 0 := h.2.2.1
  omega

/-- DeserializeRejectsTheRest: a source that is long enough, whose leaf count byte is 3 and whose first header bit is 1. -/
theorem witness_badHeader : ∀ tr, ¬ SourceHeader (withSrc [0x03, 0x0B, 0x2A, 0x54, 0x18, 0x74, 0x02]) tr := by
  rintro tr ⟨-, hc, -, hb⟩
  cases tr with
  | leaf v =>
    have : (3 : Nat) = 1 % 256 := hc
    omega
  | node l r =>
    have hL : 2 ≤ (CodeTree.node l r).leafCount := by
      rw [leafCount_node]; have := leafCount_pos l; have := leafCount_pos r; omega
    obtain ⟨n, hn⟩ : ∃ n, 10 * (CodeTree.node l r).leafCount - 1 = n + 1 :=
      ⟨10 * (CodeTree.node l r).leafCount - 2, by omega⟩
    rw [hn, List.range_succ_eq_map] at hb
    have h0 : hbit (withSrc [0x03, 0x0B, 0x2A, 0x54, 0x18, 0x74, 0x02]) 0 = false := by
      simpa [hdr] using congrArg (fun x : Bits => x.getD 0 false) hb
    exact absurd h0 (by decide +kernel)

/-- DeserializeInvertsSerialize, first clause, and HeaderPaddingIsIgnored with a source whose padding differs. -/
theorem witness_padding : (∃ t, exec .deserialize abcFile = .next t ∧ t.error = .none) ∧
    srcRead { abcFile with src := cells [0x03, 0x0A, 0x2A, 0x54, 0xF8, 0x74, 0x02] } 0 = srcRead abcFile 0 ∧
    ∀ i, i < 10 * leafCountOf (srcRead abcFile 0) - 1 →
      hbit { abcFile with src := cells [0x03, 0x0A, 0x2A, 0x54, 0xF8, 0x74, 0x02] } i = hbit abcFile i := by
  refine ⟨⟨_, rfl, by decide +kernel⟩, by decide +kernel, ?_⟩
  have : 10 * leafCountOf (srcRead abcFile 0) - 1 = 29 := by decide +kernel
  rw [this]
  decide +kernel

/-- DeserializeInvertsSerialize, second clause. -/
theorem witness_inverts : ∃ t, exec .serialize { State.reset with tree := some abc, outCap := 5#32 } = .next t ∧
    t.error = .none ∧ t.outLen.toNat - 0 ≤ abcFile.srcLen.toNat ∧
    ∀ k, k < t.outLen.toNat - 0 → srcRead abcFile k = dstRead t (0 + k) := by
  refine ⟨_, rfl, by decide +kernel, by decide +kernel, ?_⟩
  decide +kernel

/-- ChecksCAndENeverFire: both clauses, before the last leaf of abc and at the end. -/
theorem witness_checks : ∃ p q, parseLoop (hbit abcFile) 3 29 4 ⟨.hole, 0, 0, []⟩ = some p ∧ p.i = 20 ∧
    hbit abcFile 20 = true ∧ (p.root.fill (.leaf 0#8)).isSome = true ∧
    parseLoop (hbit abcFile) 3 29 5 ⟨.hole, 0, 0, []⟩ = some q ∧ q.i = 29 :=
  ⟨⟨.node (.leaf 0x41#8) (.node (.leaf 0x42#8) .hole), 20, 2, [0x42#8, 0x41#8]⟩,
    ⟨abc.toHole, 29, 2, [0x43#8, 0x42#8, 0x41#8]⟩, by decide +kernel⟩

/-- AABC in SRC with the tree abc. -/
def aabc : State := { withSrc [0x41, 0x41, 0x42, 0x43] with tree := some abc }

/-- EncodePayloadWritesThePayload where the output just fits, and the IO_ERROR clause of EncodePayloadErrors. -/
theorem witness_encodePayload : Undisturbed aabc ∧ aabc.srcLen ≠ 0#32 ∧
    (∀ a, a < aabc.srcLen.toNat → codes abc (srcRead aabc a) ≠ []) ∧
    divCeil (((List.range aabc.srcLen.toNat).map (srcRead aabc)).flatMap (codes abc)).length 8 + 1 = 2 := by
  refine ⟨⟨rfl, rfl⟩, by decide, ?_, by decide +kernel⟩
  have : aabc.srcLen.toNat = 4 := rfl
  rw [this]
  decide +kernel

theorem witness_encodePayload_bounds :
    aabc.outLen.toNat + 2 ≤ { aabc with outCap := 2#32 }.outCap.toNat ∧
      { aabc with outCap := 1#32 }.outCap.toNat < aabc.outLen.toNat + 2 := by decide

/-- EncodePayloadErrors: the three clauses of class U. -/
theorem witness_encodePayloadErrors : State.reset.tree = none ∧
    ({ State.reset with tree := some abc }.tree.isSome = true ∧ State.reset.srcLen = 0#32) ∧
    (0 < (withSrc [0x44]).srcLen.toNat ∧ codes abc (srcRead (withSrc [0x44]) 0) = []) := by decide +kernel

/-- DecodePayloadEmitsTheBytes, and the IO_ERROR clause of DecodePayloadErrors. -/
theorem witness_sourcePayload : SourcePayload (withSrc [0x74, 0x02]) 0 abc [0x41#8, 0x41#8, 0x42#8, 0x43#8] ∧
    0 + 4 ≤ (withSrc []).outCap.toNat ∧ { withSrc [] with outCap := 3#32 }.outCap.toNat < 0 + 4 := by
  refine ⟨⟨?_, ?_, ?_, ?_⟩, ?_, ?_⟩ <;> decide +kernel

/-- DecodePayloadErrors and DecodeErrors, CORRUPT_PAYLOAD: a trailer of 9 after the header of abc. -/
theorem witness_noPayload : SourceHeader (withSrc [0x03, 0x0A, 0x2A, 0x54, 0x18, 0x74, 0x09]) abc ∧
    ∀ out, ¬ SourcePayload (withSrc [0x03, 0x0A, 0x2A, 0x54, 0x18, 0x74, 0x09]) (1 + hdrBytes abc.leafCount) abc out := by
  refine ⟨⟨abc_wf, ?_, ?_, ?_⟩, fun out h => ?_⟩
  · decide +kernel
  · decide +kernel
  · decide +kernel
  · exact absurd h.2.1 (by decide +kernel)

/-- MarkerIsIgnored: the file with the marker cleared. -/
theorem witness_marker : sourceTrailer { withSrc [0x74, 0x02] with src := cells [0x34, 0x02] } = sourceTrailer (withSrc [0x74, 0x02]) ∧
    (∀ j, j < 6 → cbit { withSrc [0x74, 0x02] with src := cells [0x34, 0x02] } j = cbit (withSrc [0x74, 0x02]) j) ∧
    8 * ((withSrc [0x74, 0x02]).srcLen.toNat - (withSrc [0x74, 0x02]).payloadOff.toNat - 1) -
      sourceTrailer (withSrc [0x74, 0x02]) = 6 ∧
    ∃ t, exec .decodePayload { withSrc [0x74, 0x02] with tree := some abc } = .next t := by
  refine ⟨by decide +kernel, by decide +kernel, by decide +kernel, _, rfl⟩

/-- PayloadRoundTrip: AABC and its payload. -/
theorem witness_roundTrip : SourceIs aabc [0x41#8, 0x41#8, 0x42#8, 0x43#8] ∧
    ∃ t, exec .encodePayload aabc = .next t ∧ t.error = .none ∧ t.outLen.toNat = 2 ∧
      (∀ k, k < 2 → srcRead (withSrc [0x74, 0x02]) (0 + k) = dstRead t (0 + k)) ∧
      (withSrc [0x74, 0x02]).srcLen.toNat = (withSrc [0x74, 0x02]).payloadOff.toNat + 2 ∧
      0 + 4 ≤ (withSrc [0x74, 0x02]).outCap.toNat := by
  refine ⟨⟨rfl, fun a v h => ?_⟩, _, rfl, by decide +kernel, by decide +kernel, by decide +kernel, rfl, by decide⟩
  match a with
  | 0 | 1 | 2 | 3 => cases h; decide +kernel
  | _ + 4 => simp at h

/-- EncodeWritesTheFile (the file of 7 bytes fits in 16 and not in 6), EncodeRejectsTheEmptySource, EndToEndRoundTrip. -/
theorem witness_encode : Undisturbed aabc ∧ aabc.srcLen ≠ 0#32 ∧
    (headerBytes abc ++ payloadBytes ([0x41#8, 0x41#8, 0x42#8, 0x43#8].flatMap (codes abc))).length = 7 ∧
    buildTree (countTable [0x41#8, 0x41#8, 0x42#8, 0x43#8]) = some abc ∧
    (withSrc []).srcLen = 0#32 ∧ SourceIs (withSrc []) [] := by
  refine ⟨⟨rfl, rfl⟩, by decide, by decide +kernel, by decide +kernel, rfl, rfl, ?_⟩
  intro a v h; simp at h

/-- EndToEndRoundTrip: a second core whose SRC holds the file of AABC, with room for the four bytes. -/
theorem witness_endToEnd : Undisturbed abcFile ∧
    SourceIs abcFile (headerBytes abc ++ payloadBytes ([0x41#8, 0x41#8, 0x42#8, 0x43#8].flatMap (codes abc))) ∧
    4 ≤ abcFile.outCap.toNat := by
  have hF : headerBytes abc ++ payloadBytes ([0x41#8, 0x41#8, 0x42#8, 0x43#8].flatMap (codes abc)) =
      [0x03#8, 0x0A#8, 0x2A#8, 0x54#8, 0x18#8, 0x74#8, 0x02#8] := by decide +kernel
  refine ⟨withSrc_undisturbed _, ⟨by rw [hF]; rfl, fun a v h => ?_⟩, by decide⟩
  rw [hF] at h
  match a with
  | 0 | 1 | 2 | 3 | 4 | 5 | 6 => cases h; decide +kernel
  | _ + 7 => simp at h

/-- DecodeRestoresTheBytes, and the IO_ERROR clause of DecodeErrors. -/
theorem witness_decode : SourcePayload abcFile (1 + hdrBytes abc.leafCount) abc [0x41#8, 0x41#8, 0x42#8, 0x43#8] ∧
    4 ≤ abcFile.outCap.toNat ∧ { abcFile with outCap := 3#32 }.outCap.toNat < 4 := by
  refine ⟨⟨?_, ?_, ?_, ?_⟩, ?_, ?_⟩ <;> decide +kernel

/-- DisturbedSourceSpoilsOnlyResults, DstChangesOnlyInTheOutputRange: a disturbed run, and offsets on both sides of its output. -/
theorem witness_disturbed : { running 0x7#32 with srcHazard := true }.srcHazard = true ∧
    (∃ t, exec .decodePayload { running 0x7#32 with outLen := 1#32, outCap := 4#32 } = .next t) ∧
    0 < outputStart .decodePayload { running 0x7#32 with outLen := 1#32 } := ⟨rfl, ⟨_, rfl⟩, by decide⟩

/-- CommandsReadOnlyTheSource: two sources that differ at SRC_LEN. -/
theorem witness_source : (∀ a, a < (withSrc [0x41]).srcLen.toNat →
      srcRead { withSrc [0x41] with src := cells [0x41, 0x42] } a = srcRead (withSrc [0x41]) a) ∧
    ∃ t, exec .count (withSrc [0x41]) = .next t := by
  refine ⟨?_, _, rfl⟩
  have : (withSrc [0x41]).srcLen.toNat = 1 := rfl
  rw [this]
  decide +kernel

/-- StepKeepsTheInvariant and StepKeepsTheTables: a running state that meets both invariants, and its step. -/
theorem witness_invariant : (running 0x1#32).Inv ∧ (running 0x1#32).TablesInv ∧ (running 0x1#32).srcHazard = false ∧
    ∃ t, step (running 0x1#32) = .next t := by
  refine ⟨⟨Memory.nil_wf, Memory.nil_wf, fun r h => ?_, by decide, fun t h => ?_, fun h => ?_, fun w h => ?_, fun h => ?_⟩,
    ⟨fun t h => ?_, fun _ v => ?_, by decide +kernel, by decide⟩, rfl, _, rfl⟩
  · simp [running, State.reset] at h
  · cases h
  · exact absurd rfl h
  · cases h; exact ⟨rfl, rfl, rfl⟩
  · cases h
  · cases h
  · show freqAt (Vector.replicate 256 0#32) v = 0#32
    simp [freqAt]

/-- RunningCommandCompletes: a running command with host actions to come. -/
theorem witness_completes : { running 0x2#32 with inbox := [.host (.write 0 4 1#32), .host (.read 4 4)] }.inbox =
    [HostAction.write 0 4 1#32, .read 4 4].map .host ∧
    ∀ e ∈ [HostAction.write 0 4 1#32, .read 4 4, .storeSrc 0 0#8, .loadDst (2 ^ 32 - 1)], LegalAction e := by
  refine ⟨rfl, fun e h => ?_⟩
  simp only [List.mem_cons, List.mem_nil_iff, or_false] at h
  rcases h with rfl | rfl | rfl | rfl <;> simp [LegalAction, Config.windowBytes, Config.spaceBytes]

end Sys2Proof.Tests
end

/-! PROOF. The register window: which accesses it takes, which register stands at an offset, and what a read and a write of
it do; then the reads of CODEBITS and of the reserved offsets. -/
namespace Sys2Proof.Machine

/-! ### Accesses to the window -/

/-- 20_memory.md R75. -/
theorem windowAccess_aligned {off : Nat} (hoff : off < 0x4000) (halign : off % 4 = 0) (f : State → State) (s : State) :
    windowAccess off 4 f s = .next (f s) := by
  have hin : ¬ Config.windowBytes ≤ off := Nat.not_le.mpr hoff
  rw [windowAccess, if_neg hin, if_pos ⟨rfl, halign⟩]

/-- 93_implementation_defined.md item 19. -/
theorem windowAccess_outside {off : Nat} (hoff : 0x4000 ≤ off) (size : Nat) (f : State → State) (s : State) :
    windowAccess off size f s = .refused (.outsideWindow off) :=
  if_pos hoff

theorem hostAction_read {off : Nat} (hoff : off < 0x4000) (halign : off % 4 = 0) (s : State) :
    hostAction (.read off 4) s = .next (hostRead off s) :=
  windowAccess_aligned hoff halign (hostRead off) s

theorem hostAction_write {off : Nat} (hoff : off < 0x4000) (halign : off % 4 = 0) (v : Word) (s : State) :
    hostAction (.write off 4 v) s = .next (hostWrite off v s) :=
  windowAccess_aligned hoff halign (hostWrite off v) s

/-! ### Reads and writes by the core's pending state -/

theorem hostRead_idle {s : State} (h : s.pending = .idle) (off : Nat) :
    hostRead off s = { s with readData := regValue s (regAt off) } := by
  rw [hostRead, h]

theorem hostRead_running {s : State} {w : Word} (h : s.pending = .running w) (off : Nat) :
    hostRead off s = { s with
      readData := busyValue s w (Config.freeWord s.draws off) (regAt off), draws := s.draws + 1 } := by
  rw [hostRead, h]

theorem hostWrite_idle {s : State} (h : s.pending = .idle) (off : Nat) (v : Word) :
    hostWrite off v s = writeReg v s (regAt off) := by
  rw [hostWrite, h]

theorem hostWrite_running {s : State} {w : Word} (h : s.pending = .running w) (off : Nat) (v : Word) :
    hostWrite off v s = s := by
  rw [hostWrite, h]

/-! ### CODEBITS -/

/-- The offset of CODEBITS[v][w] (10_state.md R21). -/
theorem regAt_codeBits (v : Byte) {w : Nat} (hw : w < 8) :
    regAt (0x1000 + 32 * v.toNat + 4 * w) = .codeBits v w := by
  have hv : v.toNat < 256 := v.isLt
  have hindex : (0x1000 + 32 * v.toNat + 4 * w - 0x1000) / 32 = v.toNat := by omega
  have hword : (0x1000 + 32 * v.toNat + 4 * w - 0x1000) % 32 / 4 = w := by omega
  unfold regAt
  rw [hindex, hword, BitVec.ofNat_toNat, BitVec.setWidth_eq]
  iterate 12 rw [if_neg (by omega)]
  rw [if_pos (by omega)]

theorem regValue_codeBits_getLsbD (s : State) (v : Byte) (w : Nat) {k : Nat} (hk : k < 32) :
    (regValue s (.codeBits v w)).getLsbD k = (codeOf s.tree v).getD (32 * w + k) false := by
  rw [regValue, packWord_getLsbD _ k hk, drop_getD]

/-- Settles O14: the offset is that of CODEBITS[v][w], whose word packs the code from bit 32·w on. -/
theorem codeBitsReadTheCode : Obligations.CodeBitsReadTheCode := by
  intro s v w hidle hw
  have hv : v.toNat < 256 := v.isLt
  refine ⟨regValue s (.codeBits v w), ?_, fun k hk => regValue_codeBits_getLsbD s v w hk⟩
  rw [hostAction_read (by omega) (by omega), hostRead_idle hidle, regAt_codeBits v hw]

/-! ### Reserved offsets -/

/-- The three reserved ranges of 10_state.md R21. -/
theorem regAt_reserved {off : Nat}
    (h : (0x020 ≤ off ∧ off < 0x400) ∨ (0xC00 ≤ off ∧ off < 0x1000) ∨ 0x3000 ≤ off) : regAt off = .reserved := by
  unfold regAt
  iterate 8 rw [if_neg (by omega)]
  rcases h with ⟨_, h⟩ | ⟨_, h⟩ | h
  · rw [if_pos h]
  · iterate 3 rw [if_neg (by omega)]
    rw [if_pos h]
  · iterate 5 rw [if_neg (by omega)]

theorem hostRead_reserved {off : Nat} (h : regAt off = .reserved) (s : State) :
    ∃ d, hostRead off s = { s with readData := 0#32, draws := d } := by
  cases hp : s.pending with
  | idle => exact ⟨s.draws, by rw [hostRead_idle hp, h, regValue, hp]⟩
  | running w => exact ⟨s.draws + 1, by rw [hostRead_running hp, h, busyValue, hp]⟩

theorem hostWrite_reserved {off : Nat} (h : regAt off = .reserved) (v : Word) (s : State) : hostWrite off v s = s := by
  cases hp : s.pending with
  | idle => rw [hostWrite_idle hp, h, writeReg]
  | running w => rw [hostWrite_running hp]

/-- Settles O16: no register stands at a reserved offset, and the window's bound is checked before anything else. -/
theorem reservedOffsetsReadZero : Obligations.ReservedOffsetsReadZero := by
  refine ⟨fun s off v halign hrange => ?_, fun s off size v hoff => ?_⟩
  · have hoff : off < 0x4000 := by omega
    have hreg : regAt off = .reserved := regAt_reserved (by omega)
    obtain ⟨d, hread⟩ := hostRead_reserved hreg s
    exact ⟨⟨d, by rw [hostAction_read hoff halign, hread]⟩,
      by rw [hostAction_write hoff halign, hostWrite_reserved hreg]⟩
  · exact ⟨windowAccess_outside hoff size _ s, windowAccess_outside hoff size _ s⟩

end Sys2Proof.Machine

/-! PROOF. The reset event: the value of each field after it, and what it keeps of the two memories. -/
namespace Sys2Proof.Machine

/-! ### The fields after reset (10_state.md R50) -/

@[simp] theorem resetCore_pending (s : State) : (resetCore s).pending = .idle := rfl
@[simp] theorem resetCore_done (s : State) : (resetCore s).done = false := rfl
@[simp] theorem resetCore_error (s : State) : (resetCore s).error = .none := rfl
@[simp] theorem resetCore_lastOp (s : State) : (resetCore s).lastOp = 0#4 := rfl
@[simp] theorem resetCore_freqValid (s : State) : (resetCore s).freqValid = false := rfl
@[simp] theorem resetCore_irqEn (s : State) : (resetCore s).irqEn = false := rfl
@[simp] theorem resetCore_srcLen (s : State) : (resetCore s).srcLen = 0#32 := rfl
@[simp] theorem resetCore_outCap (s : State) : (resetCore s).outCap = 0#32 := rfl
@[simp] theorem resetCore_outLen (s : State) : (resetCore s).outLen = 0#32 := rfl
@[simp] theorem resetCore_payloadOff (s : State) : (resetCore s).payloadOff = 0#32 := rfl
@[simp] theorem resetCore_leafCnt (s : State) : (resetCore s).leafCnt = 0 := rfl
@[simp] theorem resetCore_freq (s : State) : (resetCore s).freq = Vector.replicate 256 0#32 := rfl
@[simp] theorem resetCore_tree (s : State) : (resetCore s).tree = none := rfl

/-- Reset keeps SRC, whether or not it aborts a command (70_reset_and_hazards.md R292). -/
@[simp] theorem resetCore_src (s : State) : (resetCore s).src = s.src := by
  cases hp : s.pending <;> simp [resetCore, hp]

/-- Reset of an idle core aborts nothing, so it leaves no byte of DST unspecified (70_reset_and_hazards.md R292). -/
theorem resetCore_dst_of_idle {s : State} (h : s.pending = .idle) :
    (resetCore s).dst = s.dst ∧ (resetCore s).dstFree = s.dstFree := by
  simp [resetCore, h]

/-! ### The registers after reset -/

@[simp] theorem freqAt_replicate (x : Word) (v : Byte) : freqAt (Vector.replicate 256 x) v = x :=
  Vector.getElem_replicate v.isLt

theorem irq_resetCore (s : State) : (resetCore s).irq = false := by simp [State.irq]

theorem statusWord_resetCore (s : State) : statusWord (resetCore s) = 0#32 := by
  have hfields : statusWord (resetCore s) = packStatus false false false 0#4 0#4 false false false := by
    simp [statusWord, State.irq, State.treeValid, State.err, State.busy, ErrorCode.bits]
  rw [hfields]
  decide

@[simp] theorem codeOf_none (v : Byte) : codeOf none v = [] := rfl

theorem regValue_codeLen_of_no_tree {s : State} (h : s.tree = none) (v : Byte) : regValue s (.codeLen v) = 0#32 := by
  rw [regValue, h, codeOf_none]
  rfl

theorem regValue_codeBits_of_no_tree {s : State} (h : s.tree = none) (v : Byte) (w : Nat) :
    regValue s (.codeBits v w) = 0#32 := by
  rw [regValue, h, codeOf_none, List.drop_nil]
  rfl

/-- Settles O6: the fields' reset values, the views of them, and the frame of the two memories. -/
theorem resetLeavesTheSpecValues : Obligations.ResetLeavesTheSpecValues := by
  intro s
  refine ⟨⟨resetCore_pending s, statusWord_resetCore s, irq_resetCore s, ?ctrl⟩,
    ⟨resetCore_srcLen s, resetCore_outCap s, resetCore_outLen s, resetCore_payloadOff s, ?leafCnt⟩,
    fun v w => ⟨?freq, resetCore_tree s, regValue_codeLen_of_no_tree (resetCore_tree s) v,
      regValue_codeBits_of_no_tree (resetCore_tree s) v w⟩,
    fun a => congrFun (srcRead_congr (resetCore_src s)) a, fun hidle a => ?dst⟩
  case ctrl => simp [regValue]
  case leafCnt => simp [regValue]
  case freq => simp
  case dst =>
    obtain ⟨hdst, hfree⟩ := resetCore_dst_of_idle hidle
    exact congrFun (dstRead_congr hdst hfree) a

end Sys2Proof.Machine

/-! PROOF. Accesses inside the window that are not aligned 32-bit accesses. -/
namespace Sys2Proof.Machine

/-- 20_memory.md R76. -/
theorem windowAccess_unaligned {off size : Nat} (hoff : off < 0x4000) (hbad : size ≠ 4 ∨ off % 4 ≠ 0)
    (f : State → State) (s : State) : windowAccess off size f s = .refused (.notAlignedWord off size) := by
  have hin : ¬ Config.windowBytes ≤ off := Nat.not_le.mpr hoff
  have hword : ¬ (size = 4 ∧ off % 4 = 0) := not_and_or.mpr hbad
  rw [windowAccess, if_neg hin, if_neg hword]

/-- Settles O17: reads and writes share one check of the access, which never looks at the state. -/
theorem unalignedAccessesAreRefused : Obligations.UnalignedAccessesAreRefused := fun s off _ v hoff hbad =>
  ⟨windowAccess_unaligned hoff hbad (hostRead off) s, windowAccess_unaligned hoff hbad (hostWrite off v) s⟩

end Sys2Proof.Machine

/-! PROOF. The decoder and the encoder: a command word is legal exactly when it is the word of a command. -/
namespace Sys2Proof

/-! ### The two fields of a command word (30_encoding.md R100) -/

theorem extractLsb'_reserved_eq_zero_iff (w : Word) : w.extractLsb' 4 28 = 0#28 ↔ w.toNat < 16 := by
  have hw : w.toNat < 2 ^ 32 := w.isLt
  rw [← BitVec.toNat_inj, BitVec.extractLsb'_toNat, Nat.shiftRight_eq_div_pow, BitVec.toNat_ofNat]
  omega

theorem extractLsb'_op_toNat (w : Word) : (w.extractLsb' 0 4).toNat = w.toNat % 16 := by
  rw [BitVec.extractLsb'_toNat, Nat.shiftRight_zero]

/-! ### The opcode map (30_encoding.md R102) -/

theorem decodeOp_encode (i : Instr) : decodeOp (encode i).toNat = .ok i := by
  cases i <;> rfl

theorem eq_encode_of_decodeOp {op : Nat} {i : Instr} (h : decodeOp op = .ok i) : op = (encode i).toNat := by
  unfold decodeOp at h
  split at h <;> cases h <;> rfl

theorem encode_toNat_lt (i : Instr) : (encode i).toNat < 16 := by
  cases i <;> decide

/-! ### The whole word (30_encoding.md R104) -/

/-- A word whose reserved field is 0 is its own opcode; every other word is rejected. -/
theorem decode_eq (w : Word) :
    decode w = if w.toNat < 16 then decodeOp w.toNat else .error .reservedBits := by
  rw [decode, extractLsb'_op_toNat]
  by_cases hw : w.toNat < 16
  · rw [if_pos ((extractLsb'_reserved_eq_zero_iff w).mpr hw), if_pos hw, Nat.mod_eq_of_lt hw]
  · rw [if_neg (mt (extractLsb'_reserved_eq_zero_iff w).mp hw), if_neg hw]

@[simp] theorem decode_encode (i : Instr) : decode (encode i) = .ok i := by
  rw [decode_eq, if_pos (encode_toNat_lt i), decodeOp_encode]

theorem decode_eq_ok_iff {w : Word} {i : Instr} : decode w = .ok i ↔ w = encode i := by
  constructor
  · intro h
    rw [decode_eq] at h
    split at h
    · exact BitVec.eq_of_toNat_eq (eq_encode_of_decodeOp h)
    · cases h
  · rintro rfl
    exact decode_encode i

/-- Settles O2: the decoder accepts a word for a command exactly when it is the command's encoding, and each command has one
row of the map. -/
theorem decodeMatchesTheOpcodeMap : Obligations.DecodeMatchesTheOpcodeMap := by
  intro w i
  rw [decode_eq_ok_iff]
  cases i <;> simp [encode]

end Sys2Proof

/-! PROOF. Paths of a tree: a path that begins with the path of a leaf value belongs to that value (40_tree.md R152). -/
namespace Sys2Proof.Machine

theorem mem_leaves_of_path {t : CodeTree} {v : Byte} {p : Bits} (h : t.path v = some p) : v ∈ t.leaves :=
  path_isSome.mp (Option.isSome_of_eq_some h)

/-- A lone leaf has one value. -/
theorem eq_of_mem_leaf {w u v : Byte} (hu : u ∈ (CodeTree.leaf w).leaves) (hv : v ∈ (CodeTree.leaf w).leaves) : u = v :=
  (List.mem_singleton.mp hu).trans (List.mem_singleton.mp hv).symm

/-- A path of a node begins with the step to the child it goes on in, and goes on as a path of that child. -/
theorem path_node_eq_some {l r : CodeTree} {v : Byte} {p : Bits} (h : (CodeTree.node l r).path v = some p) :
    (∃ q, l.path v = some q ∧ p = false :: q) ∨ (∃ q, r.path v = some q ∧ p = true :: q) := by
  simp only [CodeTree.path] at h
  split at h
  · rename_i q hl
    exact .inl ⟨q, hl, (Option.some.inj h).symm⟩
  · obtain ⟨q, hr, hp⟩ := Option.map_eq_some_iff.mp h
    exact .inr ⟨q, hr, hp.symm⟩

/-- Both paths take the same first step, so they go on in the same child; at a leaf both values are the leaf's. -/
theorem eq_of_path_prefix {t : CodeTree} {u v : Byte} {p q : Bits} (hu : t.path u = some p) (hv : t.path v = some q)
    (hpq : p <+: q) : u = v := by
  induction t generalizing p q with
  | leaf w => exact eq_of_mem_leaf (mem_leaves_of_path hu) (mem_leaves_of_path hv)
  | node l r ihl ihr =>
    rcases path_node_eq_some hu with ⟨p', hu', rfl⟩ | ⟨p', hu', rfl⟩
    · rcases path_node_eq_some hv with ⟨q', hv', rfl⟩ | ⟨q', hv', rfl⟩
      · exact ihl hu' hv' (List.cons_prefix_cons.mp hpq).2
      · cases (List.cons_prefix_cons.mp hpq).1
    · rcases path_node_eq_some hv with ⟨q', hv', rfl⟩ | ⟨q', hv', rfl⟩
      · cases (List.cons_prefix_cons.mp hpq).1
      · exact ihr hu' hv' (List.cons_prefix_cons.mp hpq).2

/-- In a tree of two leaves or more the code of a leaf value is its path (40_tree.md R150). -/
theorem path_eq_codes {l r : CodeTree} {v : Byte} (hv : v ∈ (CodeTree.node l r).leaves) :
    (CodeTree.node l r).path v = some (codes (.node l r) v) := by
  obtain ⟨p, hp⟩ := Option.isSome_iff_exists.mp (path_isSome.mpr hv)
  rw [codes, hp, Option.getD_some]

/-- Settles O28: a lone leaf has one value, and the codes of a larger tree are paths. -/
theorem codesArePrefixFree : Obligations.CodesArePrefixFree := by
  intro tr u v _ hu hv huv hprefix
  cases tr with
  | leaf w => exact huv (eq_of_mem_leaf hu hv)
  | node l r => exact huv (eq_of_path_prefix (path_eq_codes hu) (path_eq_codes hv) hprefix)

end Sys2Proof.Machine

/-! PROOF. COUNT: the values a table gives a positive count, the table of counts of SRC, and the completion. -/
namespace Sys2Proof.Machine

/-! ### The values present in a table -/

theorem mem_symbols {f : Vector Word 256} {v : Byte} : v ∈ symbols f ↔ freqAt f v ≠ 0#32 := by
  simp [symbols, mem_allBytes, Nat.pos_iff_ne_zero, ← BitVec.toNat_inj]

theorem allBytes_rising : allBytes.Pairwise fun u v => u.toNat < v.toNat := by
  rw [allBytes, List.pairwise_map]
  refine List.pairwise_lt_range.imp_of_mem fun hi hj hij => ?_
  rw [List.mem_range] at hi hj
  rwa [BitVec.toNat_ofNat, BitVec.toNat_ofNat, Nat.mod_eq_of_lt hi, Nat.mod_eq_of_lt hj]

theorem symbols_rising (f : Vector Word 256) : (symbols f).Pairwise fun u v => u.toNat < v.toNat :=
  allBytes_rising.filter _

/-- The two ways to count the positive entries agree: over the byte values, and over the numbers below 256. -/
theorem symbols_length (f : Vector Word 256) : (symbols f).length = presentValues f := by
  rw [symbols, allBytes, List.filter_map, List.length_map, presentValues]
  congr 2
  funext k
  simp [Nat.pos_iff_ne_zero, ← BitVec.toNat_inj]

/-! ### The table of counts -/

theorem freqAt_countTable (bytes : List Byte) (v : Byte) :
    freqAt (countTable bytes) v = BitVec.ofNat 32 (bytes.count v) := by
  simp [freqAt, countTable]

/-- A value occurs in the source bytes as often as an offset below SRC_LEN holds it. -/
theorem count_srcBytes (s : State) (v : Byte) :
    (srcBytes s).count v = ((List.range s.srcLen.toNat).filter fun a => decide (srcRead s a = v)).length := by
  rw [srcBytes, List.count_eq_countP, List.countP_map, List.countP_eq_length_filter]
  rfl

theorem srcBytes_length (s : State) : (srcBytes s).length = s.srcLen.toNat := by
  rw [srcBytes, List.length_map, List.length_range]

/-- No count passes SRC_LEN, so the 32 bits of an entry hold it (40_tree.md R142). -/
theorem countsSource_countTable (s : State) : CountsSource s (countTable (srcBytes s)) := by
  intro v
  have hle : (srcBytes s).count v ≤ s.srcLen.toNat := srcBytes_length s ▸ List.count_le_length
  rw [freqAt_countTable, BitVec.toNat_ofNat, Nat.mod_eq_of_lt (Nat.lt_of_le_of_lt hle s.srcLen.isLt), count_srcBytes]

/-! ### The command -/

/-- A command that touches neither OUT_LEN nor the cells of DST keeps the output. -/
theorem keepsOutput_of_eq {s t : State} (hlen : t.outLen = s.outLen) (hdst : t.dst = s.dst) (hfree : t.dstFree = s.dstFree) :
    KeepsOutput s t :=
  ⟨hlen, fun a => congrFun (dstRead_congr hdst hfree) a⟩

/-- Where the host kept its duty, COUNT installs the table of counts and completes. -/
theorem exec_count {s : State} (h : Undisturbed s) :
    exec .count s = .next { s with
      freq := countTable (srcBytes s), leafCnt := presentValues (countTable (srcBytes s))
      freqValid := true, tree := none
      pending := .idle, done := true, error := .none, srcHazard := false, dstHazard := [] } := by
  simp only [exec, execCount, finish_undisturbed h, runCount, succeed, symbols_length]

/-- Settles O23: the run writes the tables alone, and its table counts the source. -/
theorem countCountsTheSource : Obligations.CountCountsTheSource := by
  intro s h
  refine ⟨_, exec_count h, ⟨rfl, rfl, rfl⟩, countsSource_countTable s, ?leafCnt, rfl, rfl, rfl,
    keepsOutput_of_eq rfl rfl rfl, rfl, rfl, rfl, rfl, rfl, rfl, rfl⟩
  case leafCnt => dsimp only

end Sys2Proof.Machine

/-! PROOF. BUILD: the queue it starts from, the tree its loop ends with, and the command's completion. -/
namespace Sys2Proof.Machine

/-! ### The queue before the first merge (40_tree.md R144) -/

@[simp] theorem initialQueue_length (f : Vector Word 256) : (initialQueue f).length = (symbols f).length := by
  simp [initialQueue]

theorem initialQueue_getElem? (f : Vector Word 256) (k : Nat) :
    (initialQueue f)[k]? = (symbols f)[k]?.map fun v => ⟨(freqAt f v).toNat, k, .leaf v⟩ := by
  simp [initialQueue, List.getElem?_zipIdx, Function.comp_def]

theorem initialQueue_seqs (f : Vector Word 256) :
    (initialQueue f).map (·.seq) = List.range (symbols f).length := by
  refine List.ext_getElem? fun k => ?_
  rw [List.getElem?_map, initialQueue_getElem?, Option.map_map]
  by_cases hk : k < (symbols f).length <;> simp [hk]

theorem startsQueue_initialQueue (f : Vector Word 256) : StartsQueue f (initialQueue f) := by
  refine ⟨symbols f, symbols_rising f, fun v => mem_symbols, initialQueue_length f, fun k v hv => ?_⟩
  rw [initialQueue_getElem?, hv, Option.map_some]

/-! ### The tree -/

/-- The sequence numbers 0, 1, ... of the queue are distinct and below its length, and there is fuel for every merge. -/
theorem buildTree_buildsFrom {f : Vector Word 256} (h : ∃ v, freqAt f v ≠ 0#32) :
    ∃ tr, buildTree f = some tr ∧ BuildsFrom f tr := by
  obtain ⟨v, hv⟩ := h
  have hne : initialQueue f ≠ [] := by
    rw [← List.length_pos_iff, initialQueue_length]
    exact List.length_pos_of_mem (mem_symbols.mpr hv)
  have hdistinct : ((initialQueue f).map (·.seq)).Nodup := initialQueue_seqs f ▸ List.nodup_range
  have hbelow : ∀ e ∈ initialQueue f, e.seq < (symbols f).length := fun e he =>
    List.mem_range.mp (initialQueue_seqs f ▸ List.mem_map_of_mem he)
  obtain ⟨e, hloop, hmerges⟩ := mergeLoop_mergesTo (symbols f).length (symbols f).length (initialQueue f)
    (by simp) hne hdistinct hbelow
  refine ⟨e.tree, by simp only [buildTree, hloop, onlyTree], initialQueue f, startsQueue_initialQueue f, ?_⟩
  rwa [initialQueue_length]

/-! ### The command -/

theorem runBuild_of_tree {s : State} {tr : CodeTree} (hvalid : s.freqValid = true) (htree : buildTree s.freq = some tr) :
    runBuild s = succeed { s with tree := some tr, leafCnt := presentValues s.freq } := by
  rw [runBuild, if_neg (by simp [hvalid]), htree, symbols_length]

/-- Where the host kept its duty and FREQ gives a tree, BUILD installs that tree and completes. -/
theorem exec_build_of_tree {s : State} {tr : CodeTree} (h : Undisturbed s) (hvalid : s.freqValid = true)
    (htree : buildTree s.freq = some tr) :
    exec .build s = .next { s with
      tree := some tr, leafCnt := presentValues s.freq
      pending := .idle, done := true, error := .none, srcHazard := false, dstHazard := [] } := by
  rw [exec, execBuild, finish_undisturbed h, runBuild_of_tree hvalid htree]
  rfl

/-- Settles O25: the loop's tree is one the initial queue merges to, and the run writes TREE and LEAFCNT alone. -/
theorem buildMergesTheLeast : Obligations.BuildMergesTheLeast := by
  intro s h hvalid hpositive
  obtain ⟨tr, htree, hbuilds⟩ := buildTree_buildsFrom hpositive
  exact ⟨_, tr, exec_build_of_tree h hvalid htree, ⟨rfl, rfl, rfl⟩, hbuilds, rfl, rfl, ⟨rfl, rfl⟩, rfl,
    keepsOutput_of_eq rfl rfl rfl, rfl, rfl, rfl, rfl, rfl, rfl, rfl⟩

end Sys2Proof.Machine

/-! PROOF. The header string of a tree: its length, and the serializer's loop over an explicit stack (41_header.md R171 to
R173). -/
namespace Sys2Proof.Machine

/-- A binary tree has one internal node fewer than leaves. -/
theorem internalNodes_add_one (t : CodeTree) : t.internalNodes + 1 = t.leafCount := by
  have hholes : t.toHole.holes = 0 := fill_eq_none.mp (fill_toHole t .hole)
  have hcount := holes_add_values t.toHole
  rw [hholes, toHole_values, toHole_inner, Nat.zero_add] at hcount
  exact hcount.symm

/-- 41_header.md R173. -/
theorem hdr_length (t : CodeTree) : (hdr t).length = 10 * t.leafCount - 1 := by
  have hbits : (hdr t).length = 9 * t.leafCount + t.internalNodes := by
    rw [← toHole_bits, bits_length, toHole_values, toHole_inner, CodeTree.leafCount]
  have hnodes := internalNodes_add_one t
  omega

/-- Settles O30: nine bits for each leaf, one for each internal node, and one internal node fewer than leaves. -/
theorem headerLengthLaw : Obligations.HeaderLengthLaw := hdr_length

/-- With one unit of fuel for each node of t the loop pops t off the stack and emits its header. -/
theorem hdrByStack_cons (t : CodeTree) (fuel : Nat) (stack : List CodeTree) :
    hdrByStack (fuel + (t.leafCount + t.internalNodes)) (t :: stack) = hdr t ++ hdrByStack fuel stack := by
  induction t generalizing fuel stack with
  | leaf v => rfl
  | node l r ihl ihr =>
    have hfuel : fuel + ((CodeTree.node l r).leafCount + (CodeTree.node l r).internalNodes) =
        fuel + (r.leafCount + r.internalNodes) + (l.leafCount + l.internalNodes) + 1 := by
      rw [leafCount_node, CodeTree.internalNodes]
      omega
    rw [hfuel, hdrByStack, ihl, ihr, hdr, List.cons_append, List.append_assoc]

/-- Settles O31: the loop from a stack of one tree, which ends with the stack empty and the fuel used up. -/
theorem stackSerializerGivesTheHeader : Obligations.StackSerializerGivesTheHeader := by
  intro tr
  have hloop := hdrByStack_cons tr 0 []
  rwa [Nat.zero_add, hdrByStack, List.append_nil] at hloop

end Sys2Proof.Machine

/-! PROOF. DESERIALIZE reads the leaf count byte and the header bits below 10·L − 1, and nothing else of SRC (41_header.md R181,
R188). -/
namespace Sys2Proof.Machine

/-! ### The parse loop reads no bit at HB or above -/

theorem val8_congr {bit bit' : Nat → Bool} {i : Nat} (h : ∀ k, k < 8 → bit (i + k) = bit' (i + k)) :
    val8 bit i = val8 bit' i := by
  have hmap : (List.range 8).map (fun k => (bit (i + k)).toNat * 2 ^ (7 - k)) =
      (List.range 8).map (fun k => (bit' (i + k)).toNat * 2 ^ (7 - k)) :=
    List.map_congr_left fun k hk => by rw [h k (List.mem_range.mp hk)]
  rw [val8, val8, hmap]

/-- Where check (c) fires, the leaf value read behind HB has no effect. -/
theorem parseStep_leaf_past {bit : Nat → Bool} {L HB : Nat} {p : Parse} (hb : bit p.i = true) (hc : HB < p.i + 9) :
    parseStep bit L HB p = none := by
  simp only [parseStep, hb, Bool.true_eq_false, if_false, if_pos hc]
  split <;> rfl

theorem parseStep_congr {bit bit' : Nat → Bool} {L HB : Nat} (h : ∀ i, i < HB → bit i = bit' i) {p : Parse}
    (hi : p.i < HB) : parseStep bit L HB p = parseStep bit' L HB p := by
  have hb' : bit p.i = bit' p.i := h p.i hi
  cases hb : bit p.i with
  | false => simp only [parseStep, ← hb', hb, if_true]
  | true =>
    by_cases hc : HB < p.i + 9
    · rw [parseStep_leaf_past hb hc, parseStep_leaf_past (hb' ▸ hb) hc]
    · have hv : val8 bit (p.i + 1) = val8 bit' (p.i + 1) := val8_congr fun k hk => h _ (by omega)
      simp only [parseStep, ← hb', hb, hv]

theorem parseLoop_congr {bit bit' : Nat → Bool} {L HB : Nat} (h : ∀ i, i < HB → bit i = bit' i) (fuel : Nat)
    (p : Parse) : parseLoop bit L HB fuel p = parseLoop bit' L HB fuel p := by
  induction fuel generalizing p with
  | zero => rfl
  | succ fuel ih =>
    by_cases hi : p.i < HB
    · simp only [parseLoop, if_pos hi, parseStep_congr h hi, ih]
    · simp only [parseLoop, if_neg hi]

theorem parseHeader_congr {bit bit' : Nat → Bool} {L : Nat} (h : ∀ i, i < 10 * L - 1 → bit i = bit' i) :
    parseHeader bit L = parseHeader bit' L := by
  rw [parseHeader, parseHeader, parseLoop_congr h]

/-! ### Completion carries SRC along -/

theorem spoilDst_withSrc (as : List Nat) (m : List Host.Cell) (s : State) :
    spoilDst as { s with src := m } = { spoilDst as s with src := m } := by
  induction as generalizing s with
  | nil => rfl
  | cons a as ih => exact ih (unspecifyDst a (a + 1) s)

/-- Completion neither reads nor writes SRC: a run that differs only there completes alike. -/
theorem finish_withSrc (w : Written) (o : Nat) (m : List Host.Cell) (s : State) (r : Run) :
    finish w o { s with src := m } ⟨{ r.state with src := m }, r.error⟩ = { finish w o s r with src := m } := by
  have hunstable : unstableRun w o { s with src := m } =
      ⟨{ (unstableRun w o s).state with src := m }, (unstableRun w o s).error⟩ := rfl
  simp only [finish, hunstable]
  split <;> simp only [spoilDst_withSrc]

/-! ### The command -/

theorem runDeserialize_withSrc {s : State} {m : List Host.Cell} (hc : srcRead { s with src := m } 0 = srcRead s 0)
    (hbits : ∀ i, i < 10 * leafCountOf (srcRead s 0) - 1 → hbit { s with src := m } i = hbit s i) :
    runDeserialize { s with src := m } = ⟨{ (runDeserialize s).state with src := m }, (runDeserialize s).error⟩ := by
  simp only [runDeserialize, hc, parseHeader_congr hbits]
  split
  · rfl
  · split
    · rfl
    · split <;> rfl

/-- Settles O37: the run reads the leaf count byte and parses the bits below 10·L − 1, and completion reads no SRC at all. -/
theorem headerPaddingIsIgnored : Obligations.HeaderPaddingIsIgnored := by
  intro s t m hc hbits hexec
  cases hexec
  rw [exec, execDeserialize, runDeserialize_withSrc hc hbits, finish_withSrc]

end Sys2Proof.Machine

/-! PROOF. DESERIALIZE accepts exactly the files that begin with the header of a well-formed tree, and gives that tree back
(41_header.md R182, R185). -/
namespace Sys2Proof.Machine

/-! ### The parser inverts the header -/

/-- A loop that has come to HB makes no pass. -/
theorem parseLoop_of_le {bit : Nat → Bool} {L HB : Nat} {p : Parse} (h : HB ≤ p.i) (fuel : Nat) :
    parseLoop bit L HB fuel p = some p := by
  cases fuel with
  | zero => rfl
  | succ fuel => rw [parseLoop, if_neg (Nat.not_lt.mpr h)]

/-- What a parse that raises nothing has read: the loop stands at HB exactly, no hole remains, and so the bits below HB are the
header of the tree, whose length fixes the number of leaves. -/
theorem parseHeader_some {bit : Nat → Bool} {L : Nat} {tr : CodeTree} (hL : 1 ≤ L) (h : parseHeader bit L = some tr) :
    tr.leaves.Nodup ∧ tr.leafCount = L ∧ (List.range (10 * L - 1)).map bit = hdr tr := by
  simp only [parseHeader] at h
  split at h
  · cases h
  · rename_i p hloop
    obtain ⟨hreads, hend⟩ := parseLoop_reads hloop (start_reads bit L (10 * L - 1))
    have hroot : p.root = tr.toHole := complete_some h
    have hi : p.i = 10 * L - 1 := Nat.le_antisymm hreads.bound (hend (Nat.le_add_left _ _))
    have hbits : (List.range (10 * L - 1)).map bit = hdr tr := by
      rw [← hi, ← hreads.bits, hroot, toHole_bits]
    have hlen : 10 * L - 1 = 10 * tr.leafCount - 1 := by
      rw [← hdr_length, ← hbits, List.length_map, List.length_range]
    have hpos := leafCount_pos tr
    have hfresh := hreads.fresh
    rw [hroot, toHole_values] at hfresh
    exact ⟨hfresh, by omega, hbits⟩

/-- The header of a tree of distinct leaf values parses to the tree: one pass for each node, and no hole remains. -/
theorem parseHeader_hdr {bit : Nat → Bool} {tr : CodeTree} (hdistinct : tr.leaves.Nodup)
    (hbits : (List.range (10 * tr.leafCount - 1)).map bit = hdr tr) : parseHeader bit tr.leafCount = some tr := by
  have hlen := hdr_length tr
  have hnodes := internalNodes_add_one tr
  have hfuel : 10 * tr.leafCount - 1 = 8 * tr.leafCount + (tr.leafCount + tr.internalNodes) := by omega
  have hread : ∀ k, k < (hdr tr).length → bit (0 + k) = (hdr tr).getD k false := by
    intro k hk
    rw [hlen] at hk
    rw [← hbits, Nat.zero_add]
    simp [List.getD_eq_getElem?_getD, hk]
  have hnew : (tr.leaves ++ []).Nodup := by rwa [List.append_nil]
  have hend : 10 * tr.leafCount - 1 ≤ 0 + (hdr tr).length := by omega
  have hloop := (parseLoop_hdr bit tr.leafCount (10 * tr.leafCount - 1) tr (8 * tr.leafCount) ⟨.hole, 0, 0, []⟩ tr.toHole
    rfl hread hnew (by dsimp only; omega) (by dsimp only; omega)).trans (parseLoop_of_le hend _)
  rw [← hfuel] at hloop
  simp only [parseHeader, hloop, complete_toHole]

/-! ### The file that a source begins with -/

/-- The leaf count byte and the leaf count determine each other (30_encoding.md R113). -/
theorem leafCountOf_eq_iff {c : Byte} {L : Nat} (hpos : 1 ≤ L) (hle : L ≤ 256) :
    leafCountOf c = L ↔ c.toNat = L % 256 := by
  have hc : c.toNat < 256 := c.isLt
  unfold leafCountOf
  split <;> omega

theorem leafCountOf_bounds (c : Byte) : 1 ≤ leafCountOf c ∧ leafCountOf c ≤ 256 := by
  have hc : c.toNat < 256 := c.isLt
  unfold leafCountOf
  split <;> omega

theorem SourceHeader.leafCountOf_eq {s : State} {tr : CodeTree} (h : SourceHeader s tr) :
    leafCountOf (srcRead s 0) = tr.leafCount := by
  obtain ⟨⟨_, hpos, hle⟩, hbyte, _⟩ := h
  exact (leafCountOf_eq_iff hpos hle).mpr hbyte

/-- The checks of DESERIALIZE pass exactly where SRC begins with the header of the tree. -/
theorem sourceHeader_iff {s : State} {tr : CodeTree} :
    SourceHeader s tr ↔ 1 + hdrBytes (leafCountOf (srcRead s 0)) ≤ s.srcLen.toNat ∧
      parseHeader (hbit s) (leafCountOf (srcRead s 0)) = some tr := by
  constructor
  · intro h
    rw [h.leafCountOf_eq]
    obtain ⟨⟨hdistinct, _, _⟩, _, hlen, hbits⟩ := h
    exact ⟨hlen, parseHeader_hdr hdistinct hbits⟩
  · rintro ⟨hlen, hparse⟩
    obtain ⟨hpos, hle⟩ := leafCountOf_bounds (srcRead s 0)
    obtain ⟨hdistinct, hcount, hbits⟩ := parseHeader_some hpos hparse
    rw [← hcount] at hpos hle hlen hbits
    exact ⟨⟨hdistinct, hpos, hle⟩, (leafCountOf_eq_iff hpos hle).mp hcount.symm, hlen, hbits⟩

/-! ### The command -/

theorem runDeserialize_of_sourceHeader {s : State} {tr : CodeTree} (h : SourceHeader s tr) :
    runDeserialize s = succeed { s with
      tree := some tr, leafCnt := tr.leafCount, payloadOff := BitVec.ofNat 32 (1 + hdrBytes tr.leafCount) } := by
  obtain ⟨hlen, hparse⟩ := sourceHeader_iff.mp h
  rw [h.leafCountOf_eq] at hlen hparse
  simp only [runDeserialize, h.leafCountOf_eq, hparse]
  rw [if_neg (by omega), if_neg (by omega)]

theorem runDeserialize_of_no_sourceHeader {s : State} (h : ∀ tr, ¬ SourceHeader s tr) :
    runDeserialize s = raise .corruptHeader { s with tree := none } := by
  simp only [runDeserialize]
  split
  · rfl
  · split
    · rfl
    · rename_i hlen
      split
      · rfl
      · rename_i tr hparse
        exact absurd (sourceHeader_iff.mpr ⟨Nat.not_lt.mp hlen, hparse⟩) (h tr)

/-- Where the host kept its duty, DESERIALIZE of such a file installs the tree and completes. -/
theorem exec_deserialize_of_sourceHeader {s : State} {tr : CodeTree} (h : Undisturbed s) (hfile : SourceHeader s tr) :
    exec .deserialize s = .next { s with
      tree := some tr, leafCnt := tr.leafCount, payloadOff := BitVec.ofNat 32 (1 + hdrBytes tr.leafCount)
      pending := .idle, done := true, error := .none, srcHazard := false, dstHazard := [] } := by
  rw [exec, execDeserialize, finish_undisturbed h, runDeserialize_of_sourceHeader hfile]
  rfl

/-- Every other file is CORRUPT_HEADER. -/
theorem exec_deserialize_of_no_sourceHeader {s : State} (h : Undisturbed s) (hfile : ∀ tr, ¬ SourceHeader s tr) :
    exec .deserialize s = .next { s with
      tree := none
      pending := .idle, done := true, error := .corruptHeader, srcHazard := false, dstHazard := [] } := by
  rw [exec, execDeserialize, finish_undisturbed h, runDeserialize_of_no_sourceHeader hfile]
  rfl

/-- A DESERIALIZE that raises nothing has found the header of a well-formed tree, and installs that tree. -/
theorem sourceHeader_of_exec_deserialize {s t : State} (h : Undisturbed s) (hexec : exec .deserialize s = .next t)
    (hok : t.error = .none) : ∃ tr, SourceHeader s tr ∧ t.tree = some tr := by
  by_cases hfile : ∃ tr, SourceHeader s tr
  · obtain ⟨tr, htr⟩ := hfile
    rw [exec_deserialize_of_sourceHeader h htr] at hexec
    cases hexec
    exact ⟨tr, htr, rfl⟩
  · rw [exec_deserialize_of_no_sourceHeader h (not_exists.mp hfile)] at hexec
    cases hexec
    cases hok

/-! ### What SERIALIZE wrote, as a source -/

theorem append_holdsBytes {out : List Byte} {s : State} (h : s.outLen.toNat + out.length ≤ s.outCap.toNat) :
    HoldsBytes (append out s).state s.outLen.toNat out := by
  intro k v hv
  have hk : k < out.length := (List.getElem?_eq_some_iff.mp hv).1
  obtain ⟨_, _, hread⟩ := append_fits out s h
  rw [hread, if_pos (by omega), Nat.add_sub_cancel_left, List.getD_eq_getElem?_getD, hv, Option.getD_some]

theorem headerBytes_length (tr : CodeTree) : (headerBytes tr).length = 1 + hdrBytes tr.leafCount := by
  rw [headerBytes, List.length_cons, pack_length, Nat.add_comm]

/-- A SERIALIZE that raises nothing leaves the header bytes in DST at the old OUT_LEN, and OUT_LEN behind them. -/
theorem holdsBytes_of_exec_serialize {s t : State} {tr : CodeTree} (h : Undisturbed s) (htree : s.tree = some tr)
    (hexec : exec .serialize s = .next t) (hok : t.error = .none) :
    t.outLen.toNat = s.outLen.toNat + (headerBytes tr).length ∧ HoldsBytes t s.outLen.toNat (headerBytes tr) := by
  have hrun : runSerialize s = append (headerBytes tr) s := by rw [runSerialize, htree]
  rw [exec, execSerialize, finish_undisturbed h, hrun] at hexec
  cases hexec
  replace hok : (append (headerBytes tr) s).error = .none := (partialOutput_error _ _ _).symm.trans hok
  rcases append_cases (headerBytes tr) s with ⟨hfits, _⟩ | ⟨_, hraise⟩
  · rw [partialOutput_of_false (by rw [hok]; rfl)]
    obtain ⟨_, hlen, _⟩ := append_fits (headerBytes tr) s hfits
    exact ⟨hlen, append_holdsBytes hfits⟩
  · rw [hraise] at hok
    cases hok

/-- The header's bits all lie in its bytes (30_encoding.md R114). -/
theorem headerBits_le (L : Nat) : 10 * L - 1 ≤ 8 * hdrBytes L := by
  unfold hdrBytes divCeil
  omega

/-- A source that begins with the bytes SERIALIZE writes is one that begins with the header of the tree. -/
theorem sourceHeader_of_headerBytes {s : State} {tr : CodeTree} (hwf : tr.wf)
    (hlen : (headerBytes tr).length ≤ s.srcLen.toNat)
    (hbytes : ∀ k v, (headerBytes tr)[k]? = some v → srcRead s k = v) : SourceHeader s tr := by
  have hcount : srcRead s 0 = BitVec.ofNat 8 (tr.leafCount % 256) := hbytes 0 _ rfl
  have hpacked : ∀ j v, (pack (hdr tr) (hdrBytes tr.leafCount))[j]? = some v → srcRead s (1 + j) = v := fun j v hv =>
    hbytes (1 + j) v (by rwa [headerBytes, Nat.add_comm, List.getElem?_cons_succ])
  refine ⟨hwf, by rw [hcount, BitVec.toNat_ofNat, Nat.mod_mod], headerBytes_length tr ▸ hlen, ?bits⟩
  case bits =>
    refine List.ext_getElem (by rw [List.length_map, List.length_range, hdr_length]) fun i hi hi' => ?_
    have hi8 : i < 8 * hdrBytes tr.leafCount :=
      Nat.lt_of_lt_of_le (hdr_length tr ▸ hi') (headerBits_le tr.leafCount)
    rw [List.getElem_map, List.getElem_range, hbit, pack_streamBit _ _ _ _ hpacked hi8]
    simp [List.getD_eq_getElem?_getD, hi']

/-- Settles O36: DESERIALIZE succeeds exactly on the header of a well-formed tree, which the parse gives back, and the bytes
SERIALIZE writes are such a header. -/
theorem deserializeInvertsSerialize : Obligations.DeserializeInvertsSerialize := by
  refine ⟨fun s t h hexec hok => ?parsed, fun s t u tr hs hu htree hwf hexec hok hlen hbytes => ?inverted⟩
  case parsed =>
    obtain ⟨tr, hfile, htr⟩ := sourceHeader_of_exec_deserialize h hexec hok
    have hcount := hfile.leafCountOf_eq
    obtain ⟨hwf, _, _, hbits⟩ := hfile
    exact ⟨tr, htr, hwf, hcount.symm, internalNodes_add_one tr, hbits.symm⟩
  case inverted =>
    obtain ⟨hout, hholds⟩ := holdsBytes_of_exec_serialize hs htree hexec hok
    rw [hout, Nat.add_sub_cancel_left] at hlen hbytes
    have hfile : SourceHeader u tr := sourceHeader_of_headerBytes hwf hlen fun k v hv => by
      rw [hbytes k (List.getElem?_eq_some_iff.mp hv).1, hholds k v hv]
    exact ⟨_, exec_deserialize_of_sourceHeader hu hfile, ⟨rfl, rfl, rfl⟩, rfl⟩

end Sys2Proof.Machine

/-! PROOF. A command that appends output which fits: its completion, the bytes in DST and the frame (20_memory.md R74). -/
namespace Sys2Proof.Machine

theorem append_of_fits {out : List Byte} {s : State} (hfits : s.outLen.toNat + out.length ≤ s.outCap.toNat) :
    append out s = succeed { s with
      dst := Memory.writeBytes s.dst s.outLen.toNat out
      outLen := BitVec.ofNat 32 (s.outLen.toNat + out.length) } :=
  if_pos hfits

theorem append_fits_of_error_none {out : List Byte} {s : State} (hok : (append out s).error = .none) :
    s.outLen.toNat + out.length ≤ s.outCap.toNat := by
  rcases append_cases out s with ⟨hfits, _⟩ | ⟨_, hraise⟩
  · exact hfits
  · rw [hraise] at hok
    cases hok

/-- Completing an append that fits, under an output rule for errors only. -/
theorem finish_append {out : List Byte} {s : State} (h : Undisturbed s) {p : ErrorCode → Bool} (hp : p .none = false)
    (hfits : s.outLen.toNat + out.length ≤ s.outCap.toNat) (w : Written) (o : Nat) :
    finish w o s ((append out s).partialOutput p o) = { s with
      dst := Memory.writeBytes s.dst s.outLen.toNat out
      outLen := BitVec.ofNat 32 (s.outLen.toNat + out.length)
      pending := .idle, done := true, error := .none, srcHazard := false, dstHazard := [] } := by
  rw [finish_undisturbed h, append_of_fits hfits, partialOutput_of_false hp]
  rfl

/-- Such a completion leaves the output in DST at the old OUT_LEN, moves OUT_LEN behind it and changes nothing else. -/
theorem finish_append_spec {out : List Byte} {s : State} (h : Undisturbed s) {p : ErrorCode → Bool} (hp : p .none = false)
    (hfits : s.outLen.toNat + out.length ≤ s.outCap.toNat) (w : Written) (o : Nat) {t : State}
    (ht : t = finish w o s ((append out s).partialOutput p o)) :
    Completed t .none ∧ HoldsBytes t s.outLen.toNat out ∧ t.outLen.toNat = s.outLen.toNat + out.length ∧
      KeepsDstOutside s t s.outLen.toNat (s.outLen.toNat + out.length) ∧ KeepsTables s t ∧ KeepsHostSide s t := by
  rw [finish_append h hp hfits] at ht
  obtain ⟨_, hlen, hread⟩ := append_fits out s hfits
  have hbytes := append_holdsBytes hfits
  rw [append_of_fits hfits] at hlen hread hbytes
  subst ht
  refine ⟨⟨rfl, rfl, rfl⟩, hbytes, hlen, fun a ha => (hread a).trans (if_neg (by omega)),
    ⟨⟨rfl, rfl⟩, rfl, rfl, rfl⟩, rfl, rfl, rfl, rfl, rfl, rfl, rfl⟩

end Sys2Proof.Machine

/-! PROOF. The bytes of a payload, read as a bit stream and a trailer (42_bitstream.md R202, R203, R210). -/
namespace Sys2Proof.Machine

@[simp] theorem payloadBytes_length (P : Bits) : (payloadBytes P).length = divCeil P.length 8 + 1 := by
  simp [payloadBytes]

theorem trailer_toNat (N : Nat) : (trailer N).toNat = (8 - N % 8) % 8 := by
  rw [trailer, BitVec.toNat_ofNat]
  omega

/-- The trailer counts the bits of the payload bytes behind the N payload bits. -/
theorem eight_mul_divCeil (N : Nat) : 8 * divCeil N 8 = N + (8 - N % 8) % 8 := by
  unfold divCeil
  omega

/-- The string that is packed: the payload bits, the marker bit at index N where there is one, and zeros. -/
theorem getD_append_marker (P : Bits) {j : Nat} (hj : j < 8 * divCeil P.length 8) :
    (P ++ marker P.length).getD j false = P.getD j (decide (j = P.length)) := by
  have hceil := eight_mul_divCeil P.length
  rcases Nat.lt_trichotomy j P.length with hlt | rfl | hgt
  · simp [List.getD_eq_getElem?_getD, List.getElem?_append_left hlt, hlt]
  · have hmarker : marker P.length = [true] := if_neg (by omega)
    simp [hmarker, List.getD_eq_getElem?_getD]
  · have hmarker : (marker P.length).length ≤ 1 := by unfold marker; split <;> simp
    have hend : (P ++ marker P.length).length ≤ j := by rw [List.length_append]; omega
    rw [List.getD_eq_default _ _ hend, List.getD_eq_default _ _ hgt.le, decide_eq_false hgt.ne']

section
variable {P : Bits} {byteAt : Nat → Byte} (hbytes : ∀ k v, (payloadBytes P)[k]? = some v → byteAt k = v)
include hbytes

theorem payloadBytes_streamBit {j : Nat} (hj : j < 8 * divCeil P.length 8) :
    streamBit byteAt j = P.getD j (decide (j = P.length)) := by
  rw [pack_streamBit (P ++ marker P.length) _ j byteAt (fun k v hv => ?inPayload) hj, getD_append_marker P hj]
  case inPayload =>
    have hk := (List.getElem?_eq_some_iff.mp hv).1
    exact hbytes k v (by rwa [payloadBytes, List.getElem?_append_left hk])

theorem payloadBytes_trailer : byteAt (divCeil P.length 8) = trailer P.length :=
  hbytes _ _ (by simp [payloadBytes])

/-- The stream bits below N are the payload's. -/
theorem payloadBytes_content : (List.range P.length).map (streamBit byteAt) = P := by
  refine List.ext_getElem (by simp) fun j hj hj' => ?_
  have hceil := eight_mul_divCeil P.length
  rw [List.getElem_map, List.getElem_range, payloadBytes_streamBit hbytes (by omega)]
  simp [List.getD_eq_getElem?_getD, hj']

end

theorem holdsPayload_of_holdsBytes {t : State} {o : Nat} {P : Bits} (h : HoldsBytes t o (payloadBytes P)) :
    HoldsPayload t o P :=
  ⟨fun _ hj => payloadBytes_streamBit h hj,
    (congrArg BitVec.toNat (payloadBytes_trailer h)).trans (trailer_toNat P.length)⟩

/-- SRC that ends with the payload bytes of the codes of out holds a payload of out: the trailer takes exactly the marker and
the padding away. -/
theorem sourcePayload_of_payloadBytes {s : State} {off : Nat} {tr : CodeTree} {out : List Byte} {P : Bits}
    (hmem : ∀ v ∈ out, v ∈ tr.leaves) (hP : P = out.flatMap (codes tr)) (hne : P ≠ [])
    (hlen : s.srcLen.toNat = off + (payloadBytes P).length)
    (hbytes : ∀ k v, (payloadBytes P)[k]? = some v → srcRead s (off + k) = v) :
    SourcePayload s off tr out := by
  have hpos := List.length_pos_iff.mpr hne
  have hceil := eight_mul_divCeil P.length
  rw [payloadBytes_length] at hlen
  have htrailer : sourceTrailer s = (8 - P.length % 8) % 8 := by
    rw [sourceTrailer, show s.srcLen.toNat - 1 = off + divCeil P.length 8 by omega, payloadBytes_trailer hbytes,
      trailer_toNat]
  have hbits : 8 * (s.srcLen.toNat - off - 1) - sourceTrailer s = P.length := by omega
  exact ⟨by omega, by omega, hmem, by rw [hbits, payloadBytes_content hbytes, hP]⟩

end Sys2Proof.Machine

/-! PROOF. ENCODE_PAYLOAD of a source whose bytes all have codes (42_bitstream.md R204). -/
namespace Sys2Proof.Machine

theorem runEncodePayload_of_codes {s : State} {tr : CodeTree} (htree : s.tree = some tr) (hlen : s.srcLen.toNat ≠ 0)
    (hcodes : ∀ v ∈ srcBytes s, codes tr v ≠ []) :
    runEncodePayload s = append (payloadBytes ((srcBytes s).flatMap (codes tr))) s := by
  have hall : ((srcBytes s).any fun v => (codes tr v).isEmpty) = false := by simpa using hcodes
  simp only [runEncodePayload, htree, if_neg hlen, hall, payloadBits, Bool.false_eq_true, if_false]

theorem exec_encodePayload_of_codes {s : State} {tr : CodeTree} (htree : s.tree = some tr) (hlen : s.srcLen.toNat ≠ 0)
    (hcodes : ∀ v ∈ srcBytes s, codes tr v ≠ []) :
    exec .encodePayload s = .next (finish ⟨false, false, false, false⟩ s.outLen.toNat s
      ((append (payloadBytes ((srcBytes s).flatMap (codes tr))) s).partialOutput (fun e => e == .ioError)
        s.outLen.toNat)) := by
  rw [exec, execEncodePayload, runEncodePayload_of_codes htree hlen hcodes]

/-- Settles O39: the run appends the payload bytes, whose stream is the code bits, the marker and zeros. -/
theorem encodePayloadWritesThePayload : Obligations.EncodePayloadWritesThePayload := by
  intro s tr h htree hlen hcodes P n hfits
  have hlen' : s.srcLen.toNat ≠ 0 := fun h0 => hlen (BitVec.eq_of_toNat_eq h0)
  have hcodes' : ∀ v ∈ srcBytes s, codes tr v ≠ [] := by simpa [srcBytes] using hcodes
  have hn : (payloadBytes P).length = n := payloadBytes_length P
  obtain ⟨hdone, hbytes, hout, hframe, htables, hhost⟩ :=
    finish_append_spec (out := payloadBytes P) h (p := fun e => e == .ioError) rfl (hn ▸ hfits) _ _ rfl
  rw [hn] at hout hframe
  exact ⟨_, exec_encodePayload_of_codes htree hlen' hcodes', hdone, holdsPayload_of_holdsBytes hbytes, hout, hframe,
    htables, hhost⟩

end Sys2Proof.Machine

/-! PROOF. DECODE_PAYLOAD: what it reads of SRC, and what it does with a payload that is the codes of bytes (42_bitstream.md
R210 to R216). -/
namespace Sys2Proof.Machine

/-! ### It reads the trailer and the content bits below M (42_bitstream.md R216) -/

theorem contentBits_eq (s : State) :
    contentBits s = if s.srcLen.toNat < s.payloadOff.toNat + 2 then none else if 8 < sourceTrailer s then none else
      some ((List.range (8 * (s.srcLen.toNat - s.payloadOff.toNat - 1) - sourceTrailer s)).map (cbit s)) := rfl

theorem contentBits_withSrc {s : State} {m : List Host.Cell} (ht : sourceTrailer { s with src := m } = sourceTrailer s)
    (hbits : ∀ j, j < 8 * (s.srcLen.toNat - s.payloadOff.toNat - 1) - sourceTrailer s →
      cbit { s with src := m } j = cbit s j) : contentBits { s with src := m } = contentBits s := by
  have hmap := List.map_congr_left fun j hj => hbits j (List.mem_range.mp hj)
  rw [contentBits_eq, contentBits_eq, ht, hmap]

theorem append_withSrc (out : List Byte) (m : List Host.Cell) (s : State) :
    append out { s with src := m } = ⟨{ (append out s).state with src := m }, (append out s).error⟩ := by
  simp only [append]
  split <;> rfl

theorem partialOutput_withSrc (p : ErrorCode → Bool) (o : Nat) (m : List Host.Cell) (r : Run) :
    Run.partialOutput p o ⟨{ r.state with src := m }, r.error⟩ =
      ⟨{ (r.partialOutput p o).state with src := m }, (r.partialOutput p o).error⟩ := by
  simp only [Run.partialOutput]
  split <;> rfl

theorem runDecodePayload_withSrc {s : State} {m : List Host.Cell}
    (hcontent : contentBits { s with src := m } = contentBits s) :
    runDecodePayload { s with src := m } = ⟨{ (runDecodePayload s).state with src := m }, (runDecodePayload s).error⟩ := by
  simp only [runDecodePayload, hcontent]
  split
  · rfl
  · split
    · rfl
    · split
      · rfl
      · exact append_withSrc _ m s

/-- Settles O43: the content bits are all that the run takes from SRC, and completion reads no SRC at all. -/
theorem markerIsIgnored : Obligations.MarkerIsIgnored := by
  intro s t m ht hbits hexec
  cases hexec
  rw [exec, execDecodePayload, runDecodePayload_withSrc (contentBits_withSrc ht hbits), partialOutput_withSrc,
    finish_withSrc]

/-! ### A payload that is the codes of bytes -/

theorem contentBits_of_sourcePayload {s : State} {tr : CodeTree} {out : List Byte}
    (h : SourcePayload s s.payloadOff.toNat tr out) : contentBits s = some (out.flatMap (codes tr)) := by
  obtain ⟨hlen, htrailer, _, hbits⟩ := h
  rw [contentBits_eq, if_neg (Nat.not_lt.mpr hlen), if_neg (Nat.not_lt.mpr htrailer)]
  exact congrArg some hbits

theorem runDecodePayload_of_sourcePayload {s : State} {tr : CodeTree} {out : List Byte} (htree : s.tree = some tr)
    (h : SourcePayload s s.payloadOff.toNat tr out) : runDecodePayload s = append out s := by
  have hcontent := contentBits_of_sourcePayload h
  obtain ⟨_, _, hmem, _⟩ := h
  simp only [runDecodePayload, htree, hcontent, decodeBits_codes tr out hmem]

theorem exec_decodePayload_of_sourcePayload {s : State} {tr : CodeTree} {out : List Byte} (htree : s.tree = some tr)
    (h : SourcePayload s s.payloadOff.toNat tr out) :
    exec .decodePayload s = .next (finish ⟨false, false, false, false⟩ s.outLen.toNat s
      ((append out s).partialOutput (fun e => e == .ioError || e == .corruptPayload) s.outLen.toNat)) := by
  rw [exec, execDecodePayload, runDecodePayload_of_sourcePayload htree h]

end Sys2Proof.Machine

/-! PROOF. The payload round trip (42_bitstream.md R218). -/
namespace Sys2Proof.Machine

/-- The code of a leaf value has a bit: a path in a larger tree begins with a step, and a lone leaf has the code [0]. -/
theorem codes_ne_nil {t : CodeTree} {v : Byte} (hv : v ∈ t.leaves) : codes t v ≠ [] := by
  cases t with
  | leaf u =>
    have huv : u = v := (List.mem_singleton.mp hv).symm
    simp [codes, huv]
  | node l r =>
    rcases path_node_eq_some (path_eq_codes hv) with ⟨q, _, hq⟩ | ⟨q, _, hq⟩
    · exact hq ▸ List.cons_ne_nil false q
    · exact hq ▸ List.cons_ne_nil true q

theorem flatMap_codes_ne_nil {t : CodeTree} {x : List Byte} (hne : x ≠ []) (hmem : ∀ v ∈ x, v ∈ t.leaves) :
    x.flatMap (codes t) ≠ [] := by
  obtain ⟨v, hv⟩ := List.exists_mem_of_ne_nil x hne
  exact fun hnil => codes_ne_nil (hmem v hv) (List.flatMap_eq_nil_iff.mp hnil v hv)

theorem srcBytes_of_sourceIs {s : State} {x : List Byte} (h : SourceIs s x) : srcBytes s = x := by
  obtain ⟨hlen, hread⟩ := h
  refine List.ext_getElem (by rw [srcBytes_length, hlen]) fun a ha hx => ?_
  simp only [srcBytes, List.getElem_map, List.getElem_range]
  exact hread a _ (List.getElem?_eq_getElem hx)

/-- An ENCODE_PAYLOAD of leaf values that raises nothing leaves their payload bytes in DST at the old OUT_LEN, and OUT_LEN
behind them. -/
theorem holdsBytes_of_exec_encodePayload {s t : State} {tr : CodeTree} {x : List Byte} (h : Undisturbed s)
    (htree : s.tree = some tr) (hsrc : SourceIs s x) (hne : x ≠ []) (hmem : ∀ v ∈ x, v ∈ tr.leaves)
    (hexec : exec .encodePayload s = .next t) (hok : t.error = .none) :
    t.outLen.toNat = s.outLen.toNat + (payloadBytes (x.flatMap (codes tr))).length ∧
      HoldsBytes t s.outLen.toNat (payloadBytes (x.flatMap (codes tr))) := by
  have hx := srcBytes_of_sourceIs hsrc
  obtain ⟨hxlen, _⟩ := hsrc
  have hlen : s.srcLen.toNat ≠ 0 := hxlen ▸ (List.length_pos_iff.mpr hne).ne'
  rw [exec_encodePayload_of_codes htree hlen (hx.symm ▸ fun v hv => codes_ne_nil (hmem v hv)), hx] at hexec
  cases hexec
  have hfits : s.outLen.toNat + (payloadBytes (x.flatMap (codes tr))).length ≤ s.outCap.toNat := by
    rw [finish_undisturbed h] at hok
    exact append_fits_of_error_none ((partialOutput_error _ _ _).symm.trans hok)
  obtain ⟨_, hbytes, hout, _⟩ := finish_append_spec h (p := fun e => e == .ioError) rfl hfits _ _ rfl
  exact ⟨hout, hbytes⟩

/-- Settles O44: the bytes ENCODE_PAYLOAD wrote are, in SRC, a payload whose content bits are the codes of x, and the decoder
inverts the codes. -/
theorem payloadRoundTrip : Obligations.PayloadRoundTrip := by
  intro tr x s t u _ hne hmem hs hstree hsrc hexec hok n hu hutree hulen hcopy hroom
  obtain ⟨hout, hholds⟩ := holdsBytes_of_exec_encodePayload hs hstree hsrc hne hmem hexec hok
  have hn : n = (payloadBytes (x.flatMap (codes tr))).length := by omega
  have hfile : SourcePayload u u.payloadOff.toNat tr x :=
    sourcePayload_of_payloadBytes hmem rfl (flatMap_codes_ne_nil hne hmem) (hn ▸ hulen) fun k v hv => by
      have hk : k < n := hn ▸ (List.getElem?_eq_some_iff.mp hv).1
      rw [hcopy k hk, hholds k v hv]
  obtain ⟨hdone, hbytes, hlen, _⟩ :=
    finish_append_spec hu (p := fun e => e == .ioError || e == .corruptPayload) rfl hroom _ _ rfl
  exact ⟨_, exec_decodePayload_of_sourcePayload hutree hfile, hdone, hlen, hbytes⟩

end Sys2Proof.Machine

/-! PROOF. The tree of a table: its leaves are the values of positive count, so it is well-formed (40_tree.md R147 to R149). -/
namespace Sys2Proof.Machine

theorem symbols_nodup (f : Vector Word 256) : (symbols f).Nodup :=
  (symbols_rising f).imp fun h heq => h.ne (congrArg BitVec.toNat heq)

theorem symbols_length_le (f : Vector Word 256) : (symbols f).length ≤ 256 :=
  allBytes_length ▸ List.length_filter_le _ allBytes

theorem queueLeaves_initialQueue (f : Vector Word 256) : queueLeaves (initialQueue f) = symbols f := by
  have hfst : queueLeaves (initialQueue f) = (symbols f).zipIdx.map Prod.fst := by
    rw [queueLeaves, initialQueue, List.flatMap_map, List.map_eq_flatMap]
    rfl
  rw [hfst, List.zipIdx_map_fst]

theorem queueLeaves_of_onlyTree {q : List Entry} {tr : CodeTree} (h : onlyTree q = some tr) : queueLeaves q = tr.leaves := by
  match q, h with
  | [e], h => cases h; exact List.append_nil _

/-- The merges neither lose nor make a leaf. -/
theorem leaves_of_buildTree {f : Vector Word 256} {tr : CodeTree} (h : buildTree f = some tr) :
    tr.leaves.Perm (symbols f) := by
  rw [← queueLeaves_of_onlyTree h, ← queueLeaves_initialQueue]
  exact mergeLoop_leaves _ _ _

theorem wf_of_buildTree {f : Vector Word 256} {tr : CodeTree} (h : buildTree f = some tr) : tr.wf := by
  have hperm := leaves_of_buildTree h
  exact ⟨hperm.nodup_iff.mpr (symbols_nodup f), leafCount_pos tr, hperm.length_eq.trans_le (symbols_length_le f)⟩

theorem mem_leaves_of_buildTree {f : Vector Word 256} {tr : CodeTree} (h : buildTree f = some tr) {v : Byte} :
    v ∈ tr.leaves ↔ freqAt f v ≠ 0#32 :=
  (leaves_of_buildTree h).mem_iff.trans mem_symbols

theorem buildTree_eq_none {f : Vector Word 256} (h : ∀ v, freqAt f v = 0#32) : buildTree f = none := by
  have hnil : symbols f = [] := List.eq_nil_iff_forall_not_mem.mpr fun v hv => mem_symbols.mp hv (h v)
  rw [buildTree, initialQueue, hnil]
  rfl

/-- The 32 bits of an entry hold every count of a string this short, so no present value is lost (40_tree.md R142). -/
theorem freqAt_countTable_ne_zero {x : List Byte} (hx : x.length < 2 ^ 32) {v : Byte} :
    freqAt (countTable x) v ≠ 0#32 ↔ v ∈ x := by
  have hcount : x.count v < 2 ^ 32 := Nat.lt_of_le_of_lt List.count_le_length hx
  rw [freqAt_countTable, Ne, ← BitVec.toNat_inj, BitVec.toNat_ofNat, BitVec.toNat_ofNat, Nat.mod_eq_of_lt hcount]
  rw [List.count_eq_zero, not_not]

end Sys2Proof.Machine

/-! PROOF. ENCODE and DECODE as one append each: the steps before the output set the tables, and the outputs of the steps stand
one behind the other (43_operations.md R231, R232). -/
namespace Sys2Proof.Machine

/-! ### Appending in two steps -/

theorem Memory.writeBytes_append (m : List Host.Cell) (o : Nat) (a b : List Byte) :
    Memory.writeBytes (Memory.writeBytes m o a) (o + a.length) b = Memory.writeBytes m o (a ++ b) := by
  induction a generalizing m o with
  | nil => rfl
  | cons v a ih =>
    rw [List.cons_append, Memory.writeBytes, Memory.writeBytes, ← ih, List.length_cons, Nat.add_right_comm, Nat.add_assoc]

/-- Two outputs that fit together are appended as one. -/
theorem append_andThen_append {a b : List Byte} {s : State} (hfits : s.outLen.toNat + (a ++ b).length ≤ s.outCap.toNat) :
    (append a s).andThen (append b) = append (a ++ b) s := by
  have hsum : s.outLen.toNat + a.length + b.length = s.outLen.toNat + (a ++ b).length := by
    rw [List.length_append, Nat.add_assoc]
  have hfitsA : s.outLen.toNat + a.length ≤ s.outCap.toNat := by omega
  obtain ⟨hok, hlen, _⟩ := append_fits a s hfitsA
  rw [andThen_of_none hok]
  rw [append_of_fits hfitsA] at hlen ⊢
  rw [append_of_fits hfits, append_of_fits (by rw [hlen, hsum]; exact hfits), hlen, hsum]
  simp only [succeed_state, Memory.writeBytes_append]

/-- Appending leaves alone what the next step of a composite command reads. -/
theorem append_tree (out : List Byte) (s : State) : (append out s).state.tree = s.tree := by
  unfold append; split <;> rfl

theorem srcBytes_append (out : List Byte) (s : State) : srcBytes (append out s).state = srcBytes s := by
  unfold append; split <;> exact srcBytes_congr rfl rfl

/-! ### ENCODE -/

/-- The file of the bytes x under the tree tr (43_operations.md R231). -/
def fileBytes (tr : CodeTree) (x : List Byte) : List Byte := headerBytes tr ++ payloadBytes (x.flatMap (codes tr))

/-- The state ENCODE gives BUILD: OUT_LEN is 0, and FREQ holds the counts of the source. -/
def countedStart (s : State) : State := (runCount { s with outLen := 0#32 }).state

/-- The state ENCODE gives SERIALIZE: BUILD has installed the tree tr of those counts. -/
def encodeStart (s : State) (tr : CodeTree) : State :=
  { countedStart s with tree := some tr, leafCnt := presentValues (countedStart s).freq }

theorem countedStart_freq (s : State) : (countedStart s).freq = countTable (srcBytes s) :=
  congrArg countTable (srcBytes_congr rfl rfl)

theorem srcBytes_encodeStart (s : State) (tr : CodeTree) : srcBytes (encodeStart s tr) = srcBytes s :=
  srcBytes_congr rfl rfl

theorem runEncode_eq (s : State) :
    runEncode s = ((runBuild (countedStart s)).andThen runSerialize).andThen runEncodePayload := by
  have hcount : (runCount { s with outLen := 0#32 }).error = .none := rfl
  rw [runEncode, andThen_of_none hcount, countedStart]

theorem runBuild_of_no_tree {s : State} (hvalid : s.freqValid = true) (htree : buildTree s.freq = none) :
    runBuild s = raise .emptySource { s with tree := none } := by
  rw [runBuild, if_neg (by simp [hvalid]), htree]

/-- A source whose counts give no tree stops ENCODE at BUILD. -/
theorem runEncode_of_no_tree {s : State} (htree : buildTree (countTable (srcBytes s)) = none) :
    (runEncode s).error = .emptySource := by
  have hbuild : (runBuild (countedStart s)).error = .emptySource := by
    rw [runBuild_of_no_tree rfl (by rwa [countedStart_freq]), raise_error]
  have hstop : (runBuild (countedStart s)).error ≠ .none := by rw [hbuild]; decide
  rw [runEncode_eq, andThen_of_error hstop, andThen_of_error hstop, hbuild]

/-- ENCODE_PAYLOAD behind an earlier output, of a source of leaf values. -/
theorem runEncodePayload_append {s : State} {tr : CodeTree} (out : List Byte) (htree : s.tree = some tr)
    (hne : srcBytes s ≠ []) (hmem : ∀ v ∈ srcBytes s, v ∈ tr.leaves) :
    runEncodePayload (append out s).state =
      append (payloadBytes ((srcBytes s).flatMap (codes tr))) (append out s).state := by
  have hbytes := srcBytes_append out s
  rw [runEncodePayload_of_codes ((append_tree out s).trans htree) ?length ?codes, hbytes]
  case length =>
    rw [← srcBytes_length, hbytes]
    exact (List.length_pos_iff.mpr hne).ne'
  case codes => exact hbytes.symm ▸ fun v hv => codes_ne_nil (hmem v hv)

/-- With a tree whose leaves are the source's bytes, ENCODE appends the header and then the payload to nothing. -/
theorem runEncode_of_tree {s : State} {tr : CodeTree} (htree : buildTree (countTable (srcBytes s)) = some tr)
    (hne : srcBytes s ≠ []) (hmem : ∀ v ∈ srcBytes s, v ∈ tr.leaves)
    (hfits : (fileBytes tr (srcBytes s)).length ≤ s.outCap.toNat) :
    runEncode s = append (fileBytes tr (srcBytes s)) (encodeStart s tr) := by
  have hsrc := srcBytes_encodeStart s tr
  have hbuild : runBuild (countedStart s) = succeed (encodeStart s tr) :=
    runBuild_of_tree rfl ((congrArg buildTree (countedStart_freq s)).trans htree)
  have hserialize : runSerialize (encodeStart s tr) = append (headerBytes tr) (encodeStart s tr) := rfl
  have hpayload := runEncodePayload_append (headerBytes tr) (s := encodeStart s tr) rfl (hsrc ▸ hne) (hsrc ▸ hmem)
  have hroom : (encodeStart s tr).outLen.toNat + (fileBytes tr (srcBytes s)).length ≤ (encodeStart s tr).outCap.toNat :=
    (Nat.zero_add _).trans_le hfits
  have hheader : (append (headerBytes tr) (encodeStart s tr)).error = .none := by
    rw [fileBytes, List.length_append, ← Nat.add_assoc] at hroom
    exact (append_fits _ _ (Nat.le_of_add_right_le hroom)).1
  rw [runEncode_eq, hbuild, andThen_of_none (succeed_error _), succeed_state, hserialize, andThen_of_none hheader,
    hpayload, hsrc, ← andThen_of_none hheader (append _), append_andThen_append hroom, fileBytes]

theorem exec_encode (s : State) :
    exec .encode s =
      .next (finish ⟨true, true, true, false⟩ 0 s ((runEncode s).partialOutput (fun e => e != .none) 0)) := rfl

/-! ### DECODE -/

/-- The state DECODE gives DECODE_PAYLOAD: OUT_LEN is 0, and DESERIALIZE has installed the tree tr of the file. -/
def decodeStart (s : State) (tr : CodeTree) : State :=
  { s with
    outLen := 0#32, tree := some tr, leafCnt := tr.leafCount
    payloadOff := BitVec.ofNat 32 (1 + hdrBytes tr.leafCount) }

/-- DECODE of a header and a payload that is the codes of out. -/
theorem runDecode_of_file {s : State} {tr : CodeTree} {out : List Byte} (hheader : SourceHeader s tr)
    (hpayload : SourcePayload s (1 + hdrBytes tr.leafCount) tr out) : runDecode s = append out (decodeStart s tr) := by
  have hdeserialize : runDeserialize { s with outLen := 0#32 } = succeed (decodeStart s tr) :=
    runDeserialize_of_sourceHeader hheader
  have hoff : (decodeStart s tr).payloadOff.toNat = 1 + hdrBytes tr.leafCount := by
    obtain ⟨_, _, hlen, _⟩ := hheader
    exact (BitVec.toNat_ofNat ..).trans (Nat.mod_eq_of_lt (Nat.lt_of_le_of_lt hlen s.srcLen.isLt))
  rw [runDecode, hdeserialize, andThen_of_none (succeed_error _), succeed_state,
    runDecodePayload_of_sourcePayload rfl (hoff.symm ▸ hpayload)]

theorem exec_decode (s : State) :
    exec .decode s =
      .next (finish ⟨false, true, true, true⟩ 0 s ((runDecode s).partialOutput (fun e => e != .none) 0)) := rfl

/-! ### The completion of a composite command -/

theorem finish_error_of_undisturbed {s : State} (h : Undisturbed s) (w : Written) (o : Nat) (r : Run) :
    (finish w o s r).error = r.error := by
  rw [finish_undisturbed h]

/-- Completion looks at the state a command started from only for what the host did against its duty, so a composite command that
ends as one append from a state of its own completes like a command that appends from that state. -/
theorem finish_composite_spec {out : List Byte} {s s' : State} {r : Run} (h : Undisturbed s) (h' : Undisturbed s')
    (hrun : r = append out s') (hstart : s'.outLen = 0#32) (hfits : out.length ≤ s'.outCap.toNat) (w : Written) {t : State}
    (ht : t = finish w 0 s (r.partialOutput (fun e => e != .none) 0)) :
    Completed t .none ∧ t.outLen.toNat = out.length ∧ HoldsBytes t 0 out ∧ KeepsDstOutside s' t 0 out.length ∧
      KeepsTables s' t ∧ KeepsHostSide s' t := by
  have hzero : s'.outLen.toNat = 0 := congrArg BitVec.toNat hstart
  rw [hrun, finish_undisturbed h, ← finish_undisturbed h' w 0] at ht
  obtain ⟨hdone, hbytes, hlen, hframe⟩ := finish_append_spec h' (p := fun e => e != .none) rfl (by omega) w 0 ht
  rw [hzero] at hbytes hlen hframe
  rw [Nat.zero_add] at hlen hframe
  exact ⟨hdone, hlen, hbytes, hframe⟩

end Sys2Proof.Machine

/-! PROOF. The end-to-end round trip (43_operations.md R241). -/
namespace Sys2Proof.Machine

/-- A source that is a file of the bytes x holds the file's header, and behind it a payload of x. -/
theorem source_of_fileBytes {s : State} {tr : CodeTree} {x : List Byte} (hwf : tr.wf) (hne : x ≠ [])
    (hmem : ∀ v ∈ x, v ∈ tr.leaves) (hsrc : SourceIs s (fileBytes tr x)) :
    SourceHeader s tr ∧ SourcePayload s (1 + hdrBytes tr.leafCount) tr x := by
  obtain ⟨hlen, hbytes⟩ := hsrc
  have hheader := headerBytes_length tr
  rw [fileBytes, List.length_append] at hlen
  refine ⟨sourceHeader_of_headerBytes hwf (by omega) fun k v hv => hbytes k v ?_,
    sourcePayload_of_payloadBytes hmem rfl (flatMap_codes_ne_nil hne hmem) (by omega) fun k v hv => hbytes _ v ?_⟩
  · rw [fileBytes, List.getElem?_append_left (List.getElem?_eq_some_iff.mp hv).1, hv]
  · rw [fileBytes, ← hheader, List.getElem?_append_right (Nat.le_add_right _ _), Nat.add_sub_cancel_left, hv]

/-- Settles O49: a string this short has the tree of its counts, whose leaves are its bytes; ENCODE appends the file of that tree,
and DECODE reads from it the tree and the bytes. -/
theorem endToEndRoundTrip : Obligations.EndToEndRoundTrip := by
  refine ⟨fun s h hsrc => ?empty, fun x hne hx => ?file⟩
  case empty =>
    have htree : buildTree (countTable (srcBytes s)) = none := by
      rw [srcBytes_of_sourceIs hsrc]
      exact buildTree_eq_none fun v => by rw [freqAt_countTable, List.count_nil]
    refine ⟨_, exec_encode s, rfl, rfl, ?_⟩
    rw [finish_error_of_undisturbed h, partialOutput_error, runEncode_of_no_tree htree]
  case file =>
    have hpresent := fun v => freqAt_countTable_ne_zero hx (v := v)
    obtain ⟨v, hv⟩ := List.exists_mem_of_ne_nil x hne
    obtain ⟨tr, htree, _⟩ := buildTree_buildsFrom ⟨v, (hpresent v).mpr hv⟩
    have hmem : ∀ v ∈ x, v ∈ tr.leaves := fun v hv => (mem_leaves_of_buildTree htree).mpr ((hpresent v).mpr hv)
    refine ⟨tr, htree, fun s hs hsrc hfits => ?encoded, fun u hu hsrc hroom => ?decoded⟩
    case encoded =>
      obtain rfl := srcBytes_of_sourceIs hsrc
      obtain ⟨hdone, hlen, hbytes, _⟩ := finish_composite_spec (s' := encodeStart s tr) hs hs
        (runEncode_of_tree htree hne hmem hfits) rfl hfits _ rfl
      exact ⟨_, exec_encode s, hdone, hlen, hbytes⟩
    case decoded =>
      obtain ⟨hheader, hpayload⟩ := source_of_fileBytes (wf_of_buildTree htree) hne hmem hsrc
      obtain ⟨hdone, hlen, hbytes, _⟩ := finish_composite_spec (s' := decodeStart u tr) hu hu
        (runDecode_of_file hheader hpayload) rfl hroom _ rfl
      exact ⟨_, exec_decode u, hdone, hlen, hbytes⟩

end Sys2Proof.Machine

/-! PROOF. The completion of an illegal word (43_operations.md R234). -/
namespace Sys2Proof.Machine

/-- The word of a command has its reserved field 0 and an opcode from 1 to 9, so a word that breaks this is no command's. -/
theorem decode_error_of_illegal {w : Word}
    (h : w.extractLsb' 4 28 ≠ 0#28 ∨ w.extractLsb' 0 4 = 0#4 ∨ 10 ≤ (w.extractLsb' 0 4).toNat) :
    ∃ e, decode w = .error e := by
  cases hdecode : decode w with
  | error e => exact ⟨e, rfl⟩
  | ok i =>
    rw [decode_eq_ok_iff] at hdecode
    subst hdecode
    exact absurd h (by cases i <;> decide)

theorem coreTurn_illegal {s : State} {w : Word} {e : Reject} (hrun : s.pending = .running w) (hdecode : decode w = .error e) :
    coreTurn s = .next (finishIllegal s) := by
  rw [coreTurn, hrun]
  simp only [hdecode]

theorem step_of_no_event {s : State} (h : s.inbox = []) : step s = coreTurn s := by
  rw [step, h]

/-- Settles O5: acceptance clears the hazards, so completion adds its record to the accepted state and nothing else. -/
theorem illegalWordCompletesWithItsCode : Obligations.IllegalWordCompletesWithItsCode := by
  refine ⟨rfl, fun s w hinbox hillegal => ?_⟩
  obtain ⟨e, hdecode⟩ := decode_error_of_illegal hillegal
  have hcalm : Undisturbed (accept w s) := ⟨accept_srcHazard w s, accept_dstHazard w s⟩
  rw [step_of_no_event ((accept_inbox w s).trans hinbox), coreTurn_illegal (accept_pending w s) hdecode, finishIllegal,
    finish_undisturbed hcalm]
  rfl

end Sys2Proof.Machine

/-! PROOF. What a write does to each register (43_operations.md R235, R237). -/
namespace Sys2Proof.Machine

/-- The registers from LEAFCNT on are read-only (10_state.md R21). -/
theorem writeReg_regAt_of_readOnly {off : Nat} (h : 0x01C ≤ off) (v : Word) (s : State) :
    writeReg v s (regAt off) = s := by
  unfold regAt
  iterate 7 rw [if_neg (by omega)]
  split_ifs <;> rfl

theorem hostAction_write_idle {s : State} (hidle : s.pending = .idle) {off : Nat} (hoff : off < 0x4000)
    (halign : off % 4 = 0) (v : Word) : hostAction (.write off 4 v) s = .next (writeReg v s (regAt off)) := by
  rw [hostAction_write hoff halign, hostWrite_idle hidle]

theorem hostAction_write_running {s : State} {w : Word} (hrun : s.pending = .running w) {off : Nat} (hoff : off < 0x4000)
    (halign : off % 4 = 0) (v : Word) : hostAction (.write off 4 v) s = .next s := by
  rw [hostAction_write hoff halign, hostWrite_running hrun]

/-- Settles O11: while BUSY a write is dropped before the register is looked up; while idle the register at the offset decides. -/
theorem hostWriteRules : Obligations.HostWriteRules := by
  refine fun s v => ⟨fun w off hrun hoff halign => hostAction_write_running hrun hoff halign v, fun hidle => ?_⟩
  have hwrite {off : Nat} (hoff : off < 0x4000) (halign : off % 4 = 0) := hostAction_write_idle hidle hoff halign v
  refine ⟨?cmd, ?status, ?ctrl, ?srcLen, ?outCap, ?outLen, ?payloadOff, fun off hro hoff halign => ?readOnly⟩
  case readOnly => rw [hwrite hoff halign, writeReg_regAt_of_readOnly hro]
  all_goals exact hwrite (by decide) (by decide)

end Sys2Proof.Machine

/-! PROOF. CLEAR (43_operations.md R233). -/
namespace Sys2Proof.Machine

/-- Where the host kept its duty, CLEAR empties the tables and completes. -/
theorem exec_clear {s : State} (h : Undisturbed s) :
    exec .clear s = .next { s with
      freq := Vector.replicate 256 0#32, freqValid := false, tree := none, leafCnt := 0
      outLen := 0#32, payloadOff := 0#32
      pending := .idle, done := true, error := .none, srcHazard := false, dstHazard := [] } := by
  rw [exec, execClear, finish_undisturbed h]
  rfl

/-- Settles O22: every entry of the emptied FREQ is 0, and the cells of DST are those before. -/
theorem clearEmptiesTheTables : Obligations.ClearEmptiesTheTables := fun _ h =>
  ⟨_, exec_clear h, ⟨rfl, rfl, rfl⟩, freqAt_replicate 0#32, rfl, rfl, rfl, rfl, rfl,
    ⟨rfl, rfl, rfl, rfl, rfl, rfl, rfl⟩, fun a => congrFun (dstRead_congr rfl rfl) a⟩

end Sys2Proof.Machine

/-! PROOF. What no command changes: CTRL, SRC_LEN, OUT_CAP, LASTOP, SRC, and the model's own inbox and read value. -/
namespace Sys2Proof.Machine

theorem keepsHostSide_refl (s : State) : KeepsHostSide s s := ⟨rfl, rfl, rfl, rfl, rfl, rfl, rfl⟩

theorem KeepsHostSide.trans {s t u : State} (hst : KeepsHostSide s t) (htu : KeepsHostSide t u) : KeepsHostSide s u := by
  obtain ⟨hirq, hsrcLen, hcap, hop, hsrc, hinbox, hread⟩ := htu
  rwa [KeepsHostSide, hirq, hsrcLen, hcap, hop, hsrc, hinbox, hread]

/-! ### The shared operations over runs -/

theorem spoilDst_keepsHostSide (as : List Nat) (s : State) : KeepsHostSide s (spoilDst as s) := by
  simp [KeepsHostSide]

theorem append_keepsHostSide (out : List Byte) (s : State) : KeepsHostSide s (append out s).state := by
  rcases append_cases out s with ⟨_, hrun⟩ | ⟨_, hrun⟩ <;> rw [hrun] <;> exact keepsHostSide_refl s

theorem andThen_keepsHostSide {s : State} {r : Run} {f : State → Run} (hr : KeepsHostSide s r.state)
    (hf : ∀ t, KeepsHostSide t (f t).state) : KeepsHostSide s (r.andThen f).state := by
  by_cases hok : r.error = .none
  · rw [andThen_of_none hok]
    exact hr.trans (hf r.state)
  · rwa [andThen_of_error hok]

theorem partialOutput_keepsHostSide {s : State} {r : Run} (hr : KeepsHostSide s r.state) (p : ErrorCode → Bool) (o : Nat) :
    KeepsHostSide s (r.partialOutput p o).state := by
  unfold Run.partialOutput
  split <;> exact hr

/-! ### The runs of the commands -/

theorem runBuild_keepsHostSide (s : State) : KeepsHostSide s (runBuild s).state := by
  unfold runBuild
  split
  · exact keepsHostSide_refl s
  · split <;> exact keepsHostSide_refl s

theorem runSerialize_keepsHostSide (s : State) : KeepsHostSide s (runSerialize s).state := by
  unfold runSerialize
  split
  · exact keepsHostSide_refl s
  · exact append_keepsHostSide _ s

/-- Success installs what the parse found; every failure is the raise of CORRUPT_HEADER. -/
theorem runDeserialize_keepsHostSide (s : State) : KeepsHostSide s (runDeserialize s).state := by
  by_cases hfile : ∃ tr, SourceHeader s tr
  · obtain ⟨tr, htr⟩ := hfile
    rw [runDeserialize_of_sourceHeader htr]
    exact keepsHostSide_refl s
  · rw [runDeserialize_of_no_sourceHeader (not_exists.mp hfile)]
    exact keepsHostSide_refl s

theorem runEncodePayload_keepsHostSide (s : State) : KeepsHostSide s (runEncodePayload s).state := by
  unfold runEncodePayload
  split
  · exact keepsHostSide_refl s
  · split_ifs
    · exact keepsHostSide_refl s
    · exact keepsHostSide_refl s
    · exact append_keepsHostSide _ s

theorem runDecodePayload_keepsHostSide (s : State) : KeepsHostSide s (runDecodePayload s).state := by
  unfold runDecodePayload
  split
  · exact keepsHostSide_refl s
  · split
    · exact keepsHostSide_refl s
    · split
      · exact keepsHostSide_refl s
      · exact append_keepsHostSide _ s

theorem runEncode_keepsHostSide (s : State) : KeepsHostSide s (runEncode s).state :=
  andThen_keepsHostSide (andThen_keepsHostSide (andThen_keepsHostSide (keepsHostSide_refl s) runBuild_keepsHostSide)
    runSerialize_keepsHostSide) runEncodePayload_keepsHostSide

theorem runDecode_keepsHostSide (s : State) : KeepsHostSide s (runDecode s).state :=
  andThen_keepsHostSide (runDeserialize_keepsHostSide { s with outLen := 0#32 }) runDecodePayload_keepsHostSide

/-! ### Completion -/

/-- Completion keeps what the run keeps: the run it falls back to where the host broke its duty draws registers and tables the
command writes, and no others (70_reset_and_hazards.md R295). -/
theorem finish_keepsHostSide {s : State} {r : Run} (hr : KeepsHostSide s r.state) (w : Written) (o : Nat) :
    KeepsHostSide s (finish w o s r) := by
  obtain ⟨r', ⟨rfl, _⟩ | ⟨rfl, _⟩, hfinish⟩ := finish_eq w o s r
  · rw [hfinish]
    exact hr.trans (spoilDst_keepsHostSide s.dstHazard _)
  · rw [hfinish]
    exact spoilDst_keepsHostSide s.dstHazard (unstableRun w o s).state

/-- Every meaning is the completion of a run that keeps the host's side. -/
theorem exec_eq_finish_keepsHostSide (i : Instr) (s : State) :
    ∃ w o r, exec i s = .next (finish w o s r) ∧ KeepsHostSide s r.state := by
  cases i with
  | clear => exact ⟨_, _, runClear s, rfl, keepsHostSide_refl s⟩
  | count => exact ⟨_, _, runCount s, rfl, keepsHostSide_refl s⟩
  | build => exact ⟨_, _, runBuild s, rfl, runBuild_keepsHostSide s⟩
  | serialize => exact ⟨_, _, _, rfl, partialOutput_keepsHostSide (runSerialize_keepsHostSide s) _ _⟩
  | deserialize => exact ⟨_, _, runDeserialize s, rfl, runDeserialize_keepsHostSide s⟩
  | encodePayload => exact ⟨_, _, _, rfl, partialOutput_keepsHostSide (runEncodePayload_keepsHostSide s) _ _⟩
  | decodePayload => exact ⟨_, _, _, rfl, partialOutput_keepsHostSide (runDecodePayload_keepsHostSide s) _ _⟩
  | encode => exact ⟨_, _, _, rfl, partialOutput_keepsHostSide (runEncode_keepsHostSide s) _ _⟩
  | decode => exact ⟨_, _, _, rfl, partialOutput_keepsHostSide (runDecode_keepsHostSide s) _ _⟩

end Sys2Proof.Machine

/-! PROOF. The idle core, the interrupt output and the error code numbers (60_exceptions.md R263, R270, R271, R280). -/
namespace Sys2Proof.Machine

/-! ### The idle core -/

theorem coreTurn_idle {s : State} (h : s.pending = .idle) : coreTurn s = .next s := by
  rw [coreTurn, h]

theorem step_of_core_event {s : State} {es : List Event} (h : s.inbox = .core :: es) :
    step s = coreTurn { s with inbox := es } := by
  rw [step, h]

/-- Settles O10: with and without an event in the inbox the turn is the core's, and nothing runs. -/
theorem idleCoreDoesNothing : Obligations.IdleCoreDoesNothing := fun s hidle =>
  ⟨fun hinbox => (step_of_no_event hinbox).trans (coreTurn_idle hidle),
    fun es hinbox => (step_of_core_event hinbox).trans (coreTurn_idle (s := { s with inbox := es }) hidle)⟩

/-! ### The interrupt output -/

/-- STATUS.IRQ is bit 14 (10_state.md R23). -/
theorem packStatus_irq (irq treeValid freqValid : Bool) (lastOp code : BitVec 4) (err done busy : Bool) :
    (packStatus irq treeValid freqValid lastOp code err done busy).getLsbD 14 = irq := by
  simp only [packStatus, BitVec.getLsbD_append]
  simp

/-- Completion sets DONE, whatever the result, so a command that keeps IRQ_EN leaves the interrupt output equal to it. -/
theorem irq_finish {s : State} {r : Run} (hr : KeepsHostSide s r.state) (w : Written) (o : Nat) :
    (finish w o s r).irq = s.irqEn := by
  obtain ⟨hirq, _⟩ := finish_keepsHostSide hr w o
  rw [State.irq, finish_done, hirq, Bool.true_and]

theorem irq_exec {i : Instr} {s t : State} (h : exec i s = .next t) : t.irq = s.irqEn := by
  obtain ⟨w, o, r, hexec, hr⟩ := exec_eq_finish_keepsHostSide i s
  rw [hexec] at h
  cases h
  exact irq_finish hr w o

/-- Settles O20: completion raises the output where IRQ_EN is 1; after a write the output is read off the written fields. -/
theorem interruptFollowsDoneAndEnable : Obligations.InterruptFollowsDoneAndEnable := by
  refine ⟨fun s => ⟨rfl, packStatus_irq ..⟩, fun _ _ _ => irq_exec,
    fun s => ⟨irq_finish (keepsHostSide_refl s) _ _, irq_resetCore s⟩, fun s t v hidle => ?_⟩
  obtain ⟨hcmd, hstatus, hctrl, _⟩ := (hostWriteRules s v).2 hidle
  refine ⟨fun h => ?ctrl, fun h hclear => ?status, fun h => ?cmd⟩
  case ctrl =>
    rw [hctrl] at h
    cases h
    exact ⟨rfl, rfl⟩
  case status =>
    rw [hstatus, if_pos hclear] at h
    cases h
    rfl
  case cmd =>
    rw [hcmd] at h
    cases h
    rfl

/-! ### The error code numbers -/

/-- 60_exceptions.md R263. -/
theorem errorCode_bits_le (e : ErrorCode) : e.bits.toNat ≤ 8 := by
  cases e <;> decide

/-- Settles O21: the numbers are those of 60_exceptions.md R260, in its order. -/
theorem errorCodeNumbers : Obligations.ErrorCodeNumbers := ⟨rfl, errorCode_bits_le⟩

end Sys2Proof.Machine

/-! PROOF. Reset and the host's actions while a command runs (70_reset_and_hazards.md R291, R296). -/
namespace Sys2Proof.Machine

/-! ### Reset aborts the running command -/

/-- Reset of a running core does to DST exactly what leaving the command's output range unspecified does. -/
theorem dstRead_resetCore_running {s : State} {w : Word} (h : s.pending = .running w) :
    dstRead (resetCore s) = dstRead (unspecifyDst (outputBase w s) s.outCap.toNat s) := by
  refine dstRead_congr ?dst ?dstFree <;> simp only [resetCore, h]

theorem resetCore_keepsDstOutside {s : State} {w : Word} (h : s.pending = .running w) :
    KeepsDstOutside s (resetCore s) (outputBase w s) s.outCap.toNat := fun a houtside => by
  rw [dstRead_resetCore_running h, dstRead_unspecifyDst_outside _ _ s a houtside]

/-- Settles O7: the fields take their reset values in every state, and the aborted command's output range bounds what DST loses. -/
theorem resetAbortsTheRunningCommand : Obligations.ResetAbortsTheRunningCommand := fun s _ hrun =>
  ⟨resetCore_pending s, resetCore_done s, resetCore_error s, resetCore_lastOp s, freqAt_replicate 0#32,
    resetCore_freqValid s, resetCore_tree s, resetCore_leafCnt s, resetCore_keepsDstOutside hrun⟩

/-! ### A running command's registers -/

/-- Under a running command a host action reaches the two memories, the hazard notes, the value read and the draws, and no other
field. -/
theorem hostAction_running {s t : State} {w : Word} {e : HostAction} (hrun : s.pending = .running w)
    (h : hostAction e s = .next t) :
    ∃ src dst srcHazard dstHazard readData draws, t = { s with
      src := src, dst := dst, srcHazard := srcHazard, dstHazard := dstHazard, readData := readData, draws := draws } := by
  rcases hostAction_next h with ⟨off, v, _, _, _, rfl⟩ | ⟨off, _, _, _, rfl⟩ | ⟨a, v, _, _, rfl⟩ | ⟨a, v, _, _, rfl⟩ |
    ⟨a, _, _, rfl⟩
  · exact ⟨_, _, _, _, _, _, hostWrite_running hrun off v⟩
  · exact ⟨_, _, _, _, _, _, hostRead_running hrun off⟩
  · exact ⟨_, _, _, _, _, _, rfl⟩
  · exact ⟨_, _, _, _, _, _, rfl⟩
  · unfold loadDst
    split <;> exact ⟨_, _, _, _, _, _, rfl⟩

/-- Settles O12: the operands and the status fields are none of those a host action reaches under a running command. -/
theorem runningCommandKeepsItsOperands : Obligations.RunningCommandKeepsItsOperands := by
  intro s t w e hrun h
  obtain ⟨_, _, _, _, _, _, rfl⟩ := hostAction_running hrun h
  exact ⟨hrun, rfl, rfl, rfl, rfl, rfl, rfl, rfl, rfl⟩

end Sys2Proof.Machine

/-! PROOF. The run of each command, and what it can do, said once: the parts a run is made of, and that whatever every part
keeps, every command's run keeps. -/
namespace Sys2Proof.Machine

/-! ### The run behind each meaning -/

/-- The registers and tables a command writes (30_encoding.md R103). -/
def writtenBy : Instr → Written
  | .clear => ⟨true, true, true, true⟩
  | .count | .encode => ⟨true, true, true, false⟩
  | .build => ⟨false, true, true, false⟩
  | .deserialize | .decode => ⟨false, true, true, true⟩
  | .serialize | .encodePayload | .decodePayload => ⟨false, false, false, false⟩

/-- The pseudocode of a command, before its output rule for errors. -/
def bareRun (i : Instr) (s : State) : Run :=
  match i with
  | .clear => runClear s
  | .count => runCount s
  | .build => runBuild s
  | .serialize => runSerialize s
  | .deserialize => runDeserialize s
  | .encodePayload => runEncodePayload s
  | .decodePayload => runDecodePayload s
  | .encode => runEncode s
  | .decode => runDecode s

/-- The errors of a command that are of class P, and so leave its output unspecified (60_exceptions.md R266). -/
def classP : Instr → ErrorCode → Bool
  | .clear, _ | .count, _ | .build, _ | .deserialize, _ => false
  | .serialize, e | .encodePayload, e => e == .ioError
  | .decodePayload, e => e == .ioError || e == .corruptPayload
  | .encode, e | .decode, e => e != .none

/-- The run of a command, its output rule applied. -/
def runOf (i : Instr) (s : State) : Run := (bareRun i s).partialOutput (classP i) (outputStart i s)

/-- Every meaning is the completion of the command's run. -/
theorem exec_eq_finish_runOf (i : Instr) (s : State) :
    exec i s = .next (finish (writtenBy i) (outputStart i s) s (runOf i s)) := by
  cases i <;> rfl

/-! ### What a part of a run can do -/

/-- A part that writes no table raises an error of its own and changes nothing, or appends output. -/
def RaisesOrAppends (s : State) (r : Run) : Prop :=
  (∃ e, e ≠ .singleSymbol ∧ r = raise e s) ∨ ∃ out, r = append out s

theorem runSerialize_cases (s : State) : RaisesOrAppends s (runSerialize s) := by
  unfold runSerialize
  split
  · exact .inl ⟨.sequenceError, by decide, rfl⟩
  · exact .inr ⟨_, rfl⟩

theorem runEncodePayload_cases (s : State) : RaisesOrAppends s (runEncodePayload s) := by
  unfold runEncodePayload
  split
  · exact .inl ⟨.sequenceError, by decide, rfl⟩
  · split_ifs
    · exact .inl ⟨.emptySource, by decide, rfl⟩
    · exact .inl ⟨.symbolNotInTree, by decide, rfl⟩
    · exact .inr ⟨_, rfl⟩

theorem runDecodePayload_cases (s : State) : RaisesOrAppends s (runDecodePayload s) := by
  unfold runDecodePayload
  split
  · exact .inl ⟨.sequenceError, by decide, rfl⟩
  · split
    · exact .inl ⟨.corruptPayload, by decide, rfl⟩
    · split
      · exact .inl ⟨.corruptPayload, by decide, rfl⟩
      · exact .inr ⟨_, rfl⟩

/-- BUILD ends without a tree and in an error, or installs the tree of FREQ (40_tree.md R147). -/
theorem runBuild_cases (s : State) :
    (∃ e, e ≠ .singleSymbol ∧ runBuild s = raise e { s with tree := none }) ∨
    ∃ tr, buildTree s.freq = some tr ∧
      runBuild s = succeed { s with tree := some tr, leafCnt := presentValues s.freq } := by
  by_cases hvalid : s.freqValid = true
  · cases htree : buildTree s.freq with
    | none => exact .inl ⟨.emptySource, by decide, runBuild_of_no_tree hvalid htree⟩
    | some tr => exact .inr ⟨tr, rfl, runBuild_of_tree hvalid htree⟩
  · exact .inl ⟨.sequenceError, by decide, if_pos (Bool.eq_false_of_not_eq_true hvalid)⟩

/-- DESERIALIZE ends without a tree and in CORRUPT_HEADER, or installs the tree the source begins with (41_header.md R187). -/
theorem runDeserialize_cases (s : State) :
    runDeserialize s = raise .corruptHeader { s with tree := none } ∨
    ∃ tr, SourceHeader s tr ∧ runDeserialize s = succeed { s with
      tree := some tr, leafCnt := tr.leafCount, payloadOff := BitVec.ofNat 32 (1 + hdrBytes tr.leafCount) } := by
  by_cases hfile : ∃ tr, SourceHeader s tr
  · obtain ⟨tr, htr⟩ := hfile
    exact .inr ⟨tr, htr, runDeserialize_of_sourceHeader htr⟩
  · exact .inl (runDeserialize_of_no_sourceHeader (not_exists.mp hfile))

/-! ### What every part keeps, every run keeps -/

theorem andThen_keeps {P : State → Prop} {r : Run} {f : State → Run} (hr : P r.state) (hf : ∀ t, P t → P (f t).state) :
    P (r.andThen f).state := by
  by_cases hok : r.error = .none
  · rw [andThen_of_none hok]
    exact hf _ hr
  · rwa [andThen_of_error hok]

/-- The property is kept by every update of the tables and of the output that a run is made of. -/
structure KeptByParts (P : State → Prop) : Prop where
  output : ∀ s out, P s → s.outLen.toNat + out.length ≤ s.outCap.toNat →
    P { s with dst := Memory.writeBytes s.dst s.outLen.toNat out, outLen := BitVec.ofNat 32 (s.outLen.toNat + out.length) }
  counted : ∀ s, P s → P (runCount s).state
  dropped : ∀ s, P s → P { s with tree := none }
  built : ∀ s tr, P s → buildTree s.freq = some tr → P { s with tree := some tr, leafCnt := presentValues s.freq }
  parsed : ∀ s tr, P s → SourceHeader s tr → P { s with
    tree := some tr, leafCnt := tr.leafCount, payloadOff := BitVec.ofNat 32 (1 + hdrBytes tr.leafCount) }

section
variable {P : State → Prop} (hP : KeptByParts P)
include hP

theorem KeptByParts.append {s : State} (h : P s) (out : List Byte) : P (append out s).state := by
  rcases append_cases out s with ⟨hfits, hrun⟩ | ⟨_, hrun⟩
  · rw [hrun]
    exact hP.output s out h hfits
  · rwa [hrun]

theorem KeptByParts.of_cases {s : State} {r : Run} (h : P s) (hr : RaisesOrAppends s r) : P r.state := by
  rcases hr with ⟨e, _, rfl⟩ | ⟨out, rfl⟩
  · exact h
  · exact hP.append h out

theorem KeptByParts.build {s : State} (h : P s) : P (runBuild s).state := by
  rcases runBuild_cases s with ⟨e, _, hrun⟩ | ⟨tr, htree, hrun⟩
  · rw [hrun]
    exact hP.dropped s h
  · rw [hrun]
    exact hP.built s tr h htree

theorem KeptByParts.deserialize {s : State} (h : P s) : P (runDeserialize s).state := by
  rcases runDeserialize_cases s with hrun | ⟨tr, hfile, hrun⟩
  · rw [hrun]
    exact hP.dropped s h
  · rw [hrun]
    exact hP.parsed s tr h hfile

theorem KeptByParts.encode {s : State} (h : P { s with outLen := 0#32 }) : P (runEncode s).state :=
  andThen_keeps (andThen_keeps (andThen_keeps (hP.counted _ h) fun _ => hP.build)
    fun t ht => hP.of_cases ht (runSerialize_cases t)) fun t ht => hP.of_cases ht (runEncodePayload_cases t)

theorem KeptByParts.decode {s : State} (h : P { s with outLen := 0#32 }) : P (runDecode s).state :=
  andThen_keeps (hP.deserialize h) fun t ht => hP.of_cases ht (runDecodePayload_cases t)

end

/-- The state a command's first part starts from: ENCODE and DECODE set OUT_LEN to 0 (43_operations.md R231, R232). -/
def partsStart (i : Instr) (s : State) : State :=
  match i with
  | .encode | .decode => { s with outLen := 0#32 }
  | .clear | .count | .build | .serialize | .deserialize | .encodePayload | .decodePayload => s

/-- A run ends in CLEAR's state, or in a state its parts lead to. -/
theorem bareRun_keeps {P : State → Prop} (hP : KeptByParts P) {i : Instr} {s : State} (hstart : P (partsStart i s))
    (hclear : i = .clear → P (runClear s).state) : P (bareRun i s).state := by
  cases i with
  | clear => exact hclear rfl
  | count => exact hP.counted s hstart
  | build => exact hP.build hstart
  | serialize => exact hP.of_cases hstart (runSerialize_cases s)
  | deserialize => exact hP.deserialize hstart
  | encodePayload => exact hP.of_cases hstart (runEncodePayload_cases s)
  | decodePayload => exact hP.of_cases hstart (runDecodePayload_cases s)
  | encode => exact hP.encode (s := s) hstart
  | decode => exact hP.decode (s := s) hstart

/-- The output rule leaves the output unspecified or changes nothing. -/
theorem runOf_state_cases (i : Instr) (s : State) :
    (runOf i s).state = (bareRun i s).state ∨
      (runOf i s).state = unspecifyOutput (outputStart i s) (bareRun i s).state := by
  unfold runOf Run.partialOutput
  split
  · exact .inr rfl
  · exact .inl rfl

@[simp] theorem runOf_error (i : Instr) (s : State) : (runOf i s).error = (bareRun i s).error :=
  partialOutput_error _ _ _

/-! ### Completion with and without a disturbed source (70_reset_and_hazards.md R295) -/

theorem finish_of_srcHazard_false {s : State} (h : s.srcHazard = false) (w : Written) (o : Nat) (r : Run) :
    finish w o s r = { spoilDst s.dstHazard r.state with
      pending := .idle, done := true, error := r.error, srcHazard := false, dstHazard := [] } := by
  simp only [finish, h]
  rfl

theorem finish_of_srcHazard_true {s : State} (h : s.srcHazard = true) (w : Written) (o : Nat) (r : Run) :
    finish w o s r = { spoilDst s.dstHazard (unstableRun w o s).state with
      pending := .idle, done := true, error := (unstableRun w o s).error, srcHazard := false, dstHazard := [] } := by
  simp only [finish, h]
  rfl

end Sys2Proof.Machine

/-! PROOF. The structural invariant: every update the machine makes keeps it, so every step does (10_state.md R35, R43, R45 (d),
R47; 20_memory.md R71, R73). -/
namespace Sys2Proof.Machine

/-! ### Runs -/

/-- Leaving a range unspecified takes the next draw, so the draws of all ranges stay below the counter. -/
theorem State.Inv.unspecifyDst {s : State} (h : s.Inv) (lo hi : Nat) : (unspecifyDst lo hi s).Inv :=
  { h with dstWf := Memory.forget_wf h.dstWf lo hi, drawn := drawn_unspecifyDst lo hi s h.drawn }

theorem State.Inv.unspecifyOutput {s : State} (h : s.Inv) (o : Nat) : (unspecifyOutput o s).Inv :=
  { h.unspecifyDst o s.outCap.toNat with }

theorem State.Inv.spoilDst {s : State} (h : s.Inv) (as : List Nat) : (spoilDst as s).Inv := by
  induction as generalizing s with
  | nil => exact h
  | cons a as ih => exact ih (h.unspecifyDst a (a + 1))

theorem presentValues_le (f : Vector Word 256) : presentValues f ≤ 256 :=
  symbols_length f ▸ symbols_length_le f

/-- COUNT, CLEAR and the errors of BUILD and DESERIALIZE leave no tree. -/
theorem State.Inv.withoutTree {s : State} (h : s.Inv) {n : Nat} (hn : n ≤ 256) (f : Vector Word 256) (valid : Bool)
    (len off : Word) : State.Inv { s with
      freq := f, freqValid := valid, tree := none, leafCnt := n, outLen := len, payloadOff := off } :=
  { h with leafCnt := hn, treeWf := fun _ hnone => nomatch hnone }

theorem SourceHeader.wf {s : State} {tr : CodeTree} (h : SourceHeader s tr) : tr.wf :=
  have ⟨hwf, _⟩ := h
  hwf

/-- The trees installed are well-formed. -/
theorem State.Inv.withTree {s : State} (h : s.Inv) {tr : CodeTree} (htr : tr.wf) {n : Nat} (hn : n ≤ 256) (off : Word) :
    State.Inv { s with tree := some tr, leafCnt := n, payloadOff := off } :=
  { h with leafCnt := hn, treeWf := fun _ heq => Option.some.inj heq ▸ htr }

/-- Output ends at OUT_CAP or below, so inside the space. -/
theorem inv_keptByParts : KeptByParts State.Inv where
  output s out h hfits :=
    { h with dstWf := Memory.writeBytes_wf h.dstWf _ out (hfits.trans (Nat.le_of_lt s.outCap.isLt)) }
  counted s h := h.withoutTree (symbols_length_le (countTable (srcBytes s))) _ _ _ _
  dropped _ h := h.withoutTree h.leafCnt _ _ _ _
  built _ _ h htree := h.withTree (wf_of_buildTree htree) (presentValues_le _) _
  parsed _ tr h hfile :=
    have hwf : tr.wf := hfile.wf
    have ⟨_, _, hle⟩ := hwf
    h.withTree hwf hle _

theorem State.Inv.runOf {s : State} (h : s.Inv) (i : Instr) : (runOf i s).state.Inv := by
  have hstart : (partsStart i s).Inv := by cases i <;> exact { h with }
  have hbare : (bareRun i s).state.Inv := bareRun_keeps inv_keptByParts hstart fun _ =>
    h.withoutTree (Nat.zero_le _) _ _ _ _
  rcases runOf_state_cases i s with hrun | hrun
  · rwa [hrun]
  · rw [hrun]
    exact hbare.unspecifyOutput _

/-! ### Completion -/

/-- The drawn LEAFCNT and TREE are within their types. -/
theorem State.Inv.unstableRun {s : State} (h : s.Inv) (w : Written) (o : Nat) : (unstableRun w o s).state.Inv :=
  { h.unspecifyOutput o with
    leafCnt := by
      show (if w.leafCnt then (Config.freeWord s.draws 0x01C).toNat % 257 else s.leafCnt) ≤ 256
      split
      · omega
      · exact h.leafCnt
    treeWf := by
      show ∀ t, (if w.tree then freeTree s.draws else s.tree) = some t → t.wf
      split
      · exact fun _ => freeTree_wf
      · exact h.treeWf }

theorem State.Inv.finish {s : State} {r : Run} (h : s.Inv) (hr : r.state.Inv) (w : Written) (o : Nat) :
    (finish w o s r).Inv := by
  obtain ⟨r', hr', hfinish⟩ := finish_eq w o s r
  have hrun : r'.state.Inv := by
    rcases hr' with ⟨rfl, _⟩ | ⟨rfl, _⟩
    · exact hr
    · exact h.unstableRun w o
  rw [hfinish]
  exact { hrun.spoilDst s.dstHazard with
    errDone := fun _ => rfl
    busy := fun _ hidle => nomatch hidle
    calm := fun _ => ⟨rfl, rfl⟩ }

theorem State.Inv.coreTurn {s t : State} (h : s.Inv) (hturn : coreTurn s = .next t) : t.Inv := by
  rcases coreTurn_cases s with ⟨_, heq⟩ | ⟨_, i, _, _, heq⟩ | ⟨_, _, _, _, heq⟩
  · rw [heq] at hturn
    cases hturn
    exact h
  · rw [heq, exec_eq_finish_runOf] at hturn
    cases hturn
    exact h.finish (h.runOf i) _ _
  · rw [heq] at hturn
    cases hturn
    exact h.finish h _ _

/-! ### The host -/

theorem State.Inv.accept {s : State} (h : s.Inv) (w : Word) : (accept w s).Inv :=
  { h with
    errDone := fun herr => absurd rfl herr
    busy := fun _ hw => by cases hw; exact ⟨rfl, rfl, rfl⟩
    calm := fun _ => ⟨rfl, rfl⟩ }

theorem State.Inv.acknowledge {s : State} (h : s.Inv) : (acknowledge s).Inv :=
  { h with
    errDone := fun herr => absurd rfl herr
    busy := fun w hw =>
      have ⟨_, _, hop⟩ := h.busy w hw
      ⟨rfl, rfl, hop⟩ }

theorem State.Inv.writeReg {s : State} (h : s.Inv) (v : Word) (r : Reg) : (writeReg v s r).Inv := by
  cases r with
  | cmd => exact h.accept v
  | status =>
    show (if v.getLsbD 1 then Machine.acknowledge s else s).Inv
    split
    · exact h.acknowledge
    · exact h
  | ctrl | srcLen | outCap | outLen | payloadOff => exact { h with }
  | leafCnt | freq | codeLen | codeBits | reserved => exact h

theorem State.Inv.hostWrite {s : State} (h : s.Inv) (off : Nat) (v : Word) : (hostWrite off v s).Inv := by
  cases hp : s.pending with
  | idle => exact hostWrite_idle hp off v ▸ h.writeReg v _
  | running w => exact (hostWrite_running hp off v).symm ▸ h

/-- A read while BUSY takes a draw, which no range has. -/
theorem State.Inv.hostRead {s : State} (h : s.Inv) (off : Nat) : (hostRead off s).Inv := by
  cases hp : s.pending with
  | idle =>
    rw [hostRead_idle hp]
    exact { h with }
  | running w =>
    rw [hostRead_running hp]
    exact { h with drawn := fun r hr => Nat.lt_succ_of_lt (h.drawn r hr) }

theorem busy_of_idle {s : State} (h : s.pending = .idle) : s.busy = false := by
  rw [State.busy, h]

theorem inOutput_of_idle {s : State} (h : s.pending = .idle) (a : Nat) : inOutput s a = false := by
  rw [inOutput, h]

theorem State.Inv.storeSrc {s : State} (h : s.Inv) {a : Nat} (ha : a < Config.spaceBytes) (v : Byte) :
    (storeSrc a v s).Inv :=
  { h with
    srcWf := Memory.write_wf h.srcWf a v ha
    calm := fun hidle =>
      have ⟨hsrc, hdst⟩ := h.calm hidle
      ⟨by simp [Machine.storeSrc, hsrc, busy_of_idle (s := s) hidle], hdst⟩ }

theorem State.Inv.storeDst {s : State} (h : s.Inv) {a : Nat} (ha : a < Config.spaceBytes) (v : Byte) :
    (storeDst a v s).Inv :=
  { h with
    dstWf := Memory.write_wf h.dstWf a v ha
    calm := fun hidle =>
      have ⟨hsrc, hdst⟩ := h.calm hidle
      ⟨hsrc, by simp [Machine.storeDst, hdst, inOutput_of_idle (s := s) hidle]⟩ }

theorem State.Inv.loadDst {s : State} (h : s.Inv) (a : Nat) : (loadDst a s).Inv := by
  unfold Machine.loadDst
  split
  · exact { h with drawn := fun r hr => Nat.lt_succ_of_lt (h.drawn r hr) }
  · exact { h with }

theorem State.Inv.hostAction {s t : State} {e : HostAction} (h : s.Inv) (hact : hostAction e s = .next t) : t.Inv := by
  rcases hostAction_next hact with ⟨off, v, _, _, _, rfl⟩ | ⟨off, _, _, _, rfl⟩ | ⟨a, v, _, ha, rfl⟩ |
    ⟨a, v, _, ha, rfl⟩ | ⟨a, _, _, rfl⟩
  · exact h.hostWrite off v
  · exact h.hostRead off
  · exact h.storeSrc ha v
  · exact h.storeDst ha v
  · exact h.loadDst a

/-! ### Reset -/

theorem inv_reset : State.reset.Inv where
  srcWf := Memory.nil_wf
  dstWf := Memory.nil_wf
  drawn _ hr := nomatch hr
  leafCnt := Nat.zero_le _
  treeWf _ hnone := nomatch hnone
  errDone herr := absurd rfl herr
  busy _ hw := nomatch hw
  calm _ := ⟨rfl, rfl⟩

/-- Reset gives every register its reset value, and takes the memories from the core as it was or from the aborted output. -/
theorem State.Inv.resetCore {s : State} (h : s.Inv) : (resetCore s).Inv := by
  unfold Machine.resetCore
  split
  · exact { inv_reset with srcWf := h.srcWf, dstWf := h.dstWf, drawn := h.drawn }
  · rename_i w _
    have hout := h.unspecifyDst (outputBase w s) s.outCap.toNat
    exact { inv_reset with srcWf := hout.srcWf, dstWf := hout.dstWf, drawn := hout.drawn }

/-! ### Steps -/

/-- Settles O56: the event is taken off, and each of the core's turn, the host's actions and reset keeps the invariant. -/
theorem stepKeepsTheInvariant : Obligations.StepKeepsTheInvariant := by
  intro s t h hstep
  have htaken : ∀ es, State.Inv { s with inbox := es } := fun _ => { h with }
  rcases step_next hstep with ⟨_, hturn⟩ | ⟨es, _, hturn⟩ | ⟨e, es, _, hact⟩ | ⟨es, _, rfl⟩
  · exact h.coreTurn hturn
  · exact (htaken es).coreTurn hturn
  · exact (htaken es).hostAction hact
  · exact (htaken es).resetCore

end Sys2Proof.Machine

/-! PROOF. The sum of the counts (10_state.md R42). -/
namespace Sys2Proof.Machine

theorem allBytes_nodup : allBytes.Nodup :=
  allBytes_rising.imp fun h heq => h.ne (congrArg BitVec.toNat heq)

/-- Every byte of a string is one of the 256 values, so its counts sum to its length. -/
theorem sum_count_allBytes (x : List Byte) : (allBytes.map fun v => x.count v).sum = x.length := by
  rw [← List.sum_toFinset _ allBytes_nodup]
  simpa using Multiset.sum_count_eq_card (s := allBytes.toFinset) (m := (x : Multiset Byte))
    fun v _ => List.mem_toFinset.mpr (mem_allBytes v)

theorem freqSum_countTable {x : List Byte} (hx : x.length < 2 ^ 32) : freqSum (countTable x) = x.length := by
  have hentry : ∀ v, (freqAt (countTable x) v).toNat = x.count v := fun v => by
    rw [freqAt_countTable, BitVec.toNat_ofNat, Nat.mod_eq_of_lt (Nat.lt_of_le_of_lt List.count_le_length hx)]
  simp only [freqSum, hentry, sum_count_allBytes]

theorem freqSum_countTable_srcBytes (s : State) : freqSum (countTable (srcBytes s)) = s.srcLen.toNat := by
  rw [freqSum_countTable (srcBytes_length s ▸ s.srcLen.isLt), srcBytes_length]

theorem freqSum_zero : freqSum (Vector.replicate 256 0#32) = 0 := by
  simp [freqSum]

/-- Settles O24: an entry of 32 bits holds every count, and the counts of all byte values sum to the length. -/
theorem countsSumToSourceLength : Obligations.CountsSumToSourceLength := by
  intro s t h hexec
  rw [exec_count h] at hexec
  cases hexec
  exact freqSum_countTable_srcBytes s

end Sys2Proof.Machine

/-! PROOF. What the host's actions leave of the tables and of the memories (43_operations.md R239, 20_memory.md R82). -/
namespace Sys2Proof.Machine

/-- A register write reaches the host's registers, the status fields and the hazard notes, and no other field; what it does
to the error code is clear it. -/
theorem hostWrite_frame (off : Nat) (v : Word) (s : State) :
    ∃ pending done error lastOp irqEn srcLen outCap outLen payloadOff srcHazard dstHazard,
      (error = s.error ∨ error = .none) ∧ hostWrite off v s = { s with
        pending := pending, done := done, error := error, lastOp := lastOp, irqEn := irqEn, srcLen := srcLen
        outCap := outCap, outLen := outLen, payloadOff := payloadOff, srcHazard := srcHazard, dstHazard := dstHazard } := by
  cases hp : s.pending with
  | running w => exact ⟨_, _, _, _, _, _, _, _, _, _, _, .inl rfl, hostWrite_running hp off v⟩
  | idle =>
    rw [hostWrite_idle hp]
    cases regAt off with
    | cmd => exact ⟨_, _, _, _, _, _, _, _, _, _, _, .inr rfl, rfl⟩
    | status =>
      rw [writeReg]
      split
      · exact ⟨_, _, _, _, _, _, _, _, _, _, _, .inr rfl, rfl⟩
      · exact ⟨_, _, _, _, _, _, _, _, _, _, _, .inl rfl, rfl⟩
    | ctrl | srcLen | outCap | outLen | payloadOff | leafCnt | freq | codeLen | codeBits | reserved =>
      exact ⟨_, _, _, _, _, _, _, _, _, _, _, .inl rfl, rfl⟩

/-- No host action reaches a table, and what it does to the error code is clear it. -/
theorem hostAction_tables {e : HostAction} {s t : State} (h : hostAction e s = .next t) :
    KeepsFreq s t ∧ t.tree = s.tree ∧ t.leafCnt = s.leafCnt ∧ (t.error = s.error ∨ t.error = .none) := by
  rcases hostAction_next h with ⟨off, v, _, _, _, rfl⟩ | ⟨off, _, _, _, rfl⟩ | ⟨a, v, _, _, rfl⟩ | ⟨a, v, _, _, rfl⟩ |
    ⟨a, _, _, rfl⟩
  · obtain ⟨_, _, _, _, _, _, _, _, _, _, _, herror, hwrite⟩ := hostWrite_frame off v s
    rw [hwrite]
    exact ⟨⟨rfl, rfl⟩, rfl, rfl, herror⟩
  · simp [KeepsFreq]
  · exact ⟨⟨rfl, rfl⟩, rfl, rfl, .inl rfl⟩
  · exact ⟨⟨rfl, rfl⟩, rfl, rfl, .inl rfl⟩
  · simp [KeepsFreq]

theorem dstRead_storeDst (s : State) (a : Nat) (v : Byte) (b : Nat) :
    dstRead (storeDst a v s) b = if b = a then v else dstRead s b :=
  dstRead_write s a v b

/-- Only the store to a memory reaches its cells. -/
theorem hostAction_memories {e : HostAction} {s t : State} (h : hostAction e s = .next t) :
    (∀ a, (∀ v, e ≠ .storeDst a v) → dstRead t a = dstRead s a) ∧
      ∀ a, (∀ v, e ≠ .storeSrc a v) → srcRead t a = srcRead s a := by
  have hkeep : ∀ {t : State}, t.dst = s.dst → t.dstFree = s.dstFree → t.src = s.src →
      (∀ a, (∀ v, e ≠ .storeDst a v) → dstRead t a = dstRead s a) ∧
        ∀ a, (∀ v, e ≠ .storeSrc a v) → srcRead t a = srcRead s a := fun hdst hfree hsrc =>
    ⟨fun a _ => congrFun (dstRead_congr hdst hfree) a, fun a _ => congrFun (srcRead_congr hsrc) a⟩
  rcases hostAction_next h with ⟨off, v, _, _, _, rfl⟩ | ⟨off, _, _, _, rfl⟩ | ⟨b, v, rfl, _, rfl⟩ |
    ⟨b, v, rfl, _, rfl⟩ | ⟨b, _, _, rfl⟩
  · obtain ⟨_, _, _, _, _, _, _, _, _, _, _, _, hwrite⟩ := hostWrite_frame off v s
    rw [hwrite]
    exact hkeep rfl rfl rfl
  · exact hkeep (hostRead_dst off s) (hostRead_dstFree off s) (hostRead_src off s)
  · refine ⟨fun a _ => congrFun (dstRead_congr rfl rfl) a, fun a hne => ?_⟩
    rw [srcRead_storeSrc, if_neg fun hab : a = b => hne v (hab ▸ rfl)]
  · refine ⟨fun a hne => ?_, fun a _ => congrFun (srcRead_congr rfl) a⟩
    rw [dstRead_storeDst, if_neg fun hab : a = b => hne v (hab ▸ rfl)]
  · exact hkeep (loadDst_dst b s) (loadDst_dstFree b s) (loadDst_src b s)

/-- Settles O19: the tables are no action's to write, and a memory's cells only a store's to that memory. -/
theorem hostActionsLeaveTheTables : Obligations.HostActionsLeaveTheTables := fun _ _ _ h =>
  have ⟨hfreq, htree, hleaf, _⟩ := hostAction_tables h
  ⟨hfreq, htree, hleaf, hostAction_memories h⟩

end Sys2Proof.Machine

/-! PROOF. The invariants of the tables: as long as the source is undisturbed, every step keeps them (10_state.md R42, R45 (b),
(c), 60_exceptions.md R262). -/
namespace Sys2Proof.Machine

theorem State.TablesInv.congr {s t : State} (h : s.TablesInv) (hfreq : KeepsFreq s t) (htree : t.tree = s.tree)
    (hleaf : t.leafCnt = s.leafCnt) (herror : t.error ≠ .singleSymbol) : t.TablesInv := by
  obtain ⟨hfreq, hvalid⟩ := hfreq
  exact ⟨htree ▸ hleaf ▸ h.leaves, hfreq ▸ hvalid ▸ h.noCount, hfreq ▸ h.sum, herror⟩

/-! ### Runs -/

theorem leafCount_of_buildTree {f : Vector Word 256} {tr : CodeTree} (h : buildTree f = some tr) :
    presentValues f = tr.leafCount := by
  rw [← symbols_length, CodeTree.leafCount, (leaves_of_buildTree h).length_eq]

/-- A tree comes with its leaf count, a table with FREQ_VALID, and a table of counts sums to SRC_LEN. -/
theorem tablesInv_keptByParts : KeptByParts State.TablesInv where
  output _ _ h _ := { h with }
  counted s h := { h with
    leaves := fun _ hnone => nomatch hnone
    noCount := fun hvalid => nomatch hvalid
    sum := (freqSum_countTable_srcBytes s).trans_lt s.srcLen.isLt }
  dropped _ h := { h with leaves := fun _ hnone => nomatch hnone }
  built _ _ h htree := { h with leaves := fun _ heq => Option.some.inj heq ▸ leafCount_of_buildTree htree }
  parsed _ _ h _ := { h with leaves := fun _ heq => Option.some.inj heq ▸ rfl }

theorem State.TablesInv.runClear {s : State} (h : s.TablesInv) : (runClear s).state.TablesInv :=
  { h with
    leaves := fun _ hnone => nomatch hnone
    noCount := fun _ => freqAt_replicate 0#32
    sum := freqSum_zero.trans_lt (by decide) }

theorem State.TablesInv.runOf {s : State} (h : s.TablesInv) (i : Instr) : (runOf i s).state.TablesInv := by
  have hstart : (partsStart i s).TablesInv := by cases i <;> exact { h with }
  have hbare : (bareRun i s).state.TablesInv := bareRun_keeps tablesInv_keptByParts hstart fun _ => h.runClear
  rcases runOf_state_cases i s with hrun | hrun
  · rwa [hrun]
  · rw [hrun]
    exact { hbare with }

/-! ### Errors (60_exceptions.md R262) -/

theorem append_error_ne_singleSymbol (out : List Byte) (s : State) : (append out s).error ≠ .singleSymbol := by
  rcases append_cases out s with ⟨_, hrun⟩ | ⟨_, hrun⟩ <;> simp [hrun]

theorem RaisesOrAppends.error_ne_singleSymbol {s : State} {r : Run} (h : RaisesOrAppends s r) :
    r.error ≠ .singleSymbol := by
  rcases h with ⟨e, he, rfl⟩ | ⟨out, rfl⟩
  · exact he
  · exact append_error_ne_singleSymbol out s

theorem runBuild_error_ne_singleSymbol (s : State) : (runBuild s).error ≠ .singleSymbol := by
  rcases runBuild_cases s with ⟨e, he, hrun⟩ | ⟨tr, _, hrun⟩
  · rwa [hrun]
  · simp [hrun]

theorem runDeserialize_error_ne_singleSymbol (s : State) : (runDeserialize s).error ≠ .singleSymbol := by
  rcases runDeserialize_cases s with hrun | ⟨tr, _, hrun⟩ <;> simp [hrun]

theorem andThen_error_ne {e : ErrorCode} {r : Run} {f : State → Run} (hr : r.error ≠ e) (hf : ∀ t, (f t).error ≠ e) :
    (r.andThen f).error ≠ e := by
  by_cases hok : r.error = .none
  · rw [andThen_of_none hok]
    exact hf _
  · rwa [andThen_of_error hok]

theorem runOf_error_ne_singleSymbol (i : Instr) (s : State) : (runOf i s).error ≠ .singleSymbol := by
  have hnone : ErrorCode.none ≠ .singleSymbol := by decide
  have hserialize := fun t => (runSerialize_cases t).error_ne_singleSymbol
  have hencode := fun t => (runEncodePayload_cases t).error_ne_singleSymbol
  have hdecode := fun t => (runDecodePayload_cases t).error_ne_singleSymbol
  rw [runOf_error]
  cases i with
  | clear => exact hnone
  | count => exact hnone
  | build => exact runBuild_error_ne_singleSymbol s
  | serialize => exact hserialize s
  | deserialize => exact runDeserialize_error_ne_singleSymbol s
  | encodePayload => exact hencode s
  | decodePayload => exact hdecode s
  | encode =>
    rw [bareRun, runEncode_eq]
    exact andThen_error_ne (andThen_error_ne (runBuild_error_ne_singleSymbol _) hserialize) hencode
  | decode => exact andThen_error_ne (runDeserialize_error_ne_singleSymbol _) hdecode

/-! ### Completion -/

/-- Where the source is undisturbed, completion leaves the tables as the run does. -/
theorem State.TablesInv.finish {s : State} {r : Run} (hsrc : s.srcHazard = false) (hr : r.state.TablesInv)
    (herror : r.error ≠ .singleSymbol) (w : Written) (o : Nat) : (finish w o s r).TablesInv := by
  rw [finish_of_srcHazard_false hsrc]
  exact hr.congr ⟨spoilDst_freq _ _, spoilDst_freqValid _ _⟩ (spoilDst_tree _ _) (spoilDst_leafCnt _ _) herror

theorem State.TablesInv.coreTurn {s t : State} (h : s.TablesInv) (hsrc : s.srcHazard = false)
    (hturn : coreTurn s = .next t) : t.TablesInv := by
  rcases coreTurn_cases s with ⟨_, heq⟩ | ⟨_, i, _, _, heq⟩ | ⟨_, _, _, _, heq⟩
  · rw [heq] at hturn
    cases hturn
    exact h
  · rw [heq, exec_eq_finish_runOf] at hturn
    cases hturn
    exact State.TablesInv.finish hsrc (h.runOf i) (runOf_error_ne_singleSymbol i s) _ _
  · rw [heq] at hturn
    cases hturn
    exact State.TablesInv.finish hsrc h (by simp) _ _

/-! ### The host and reset -/

theorem State.TablesInv.hostAction {s t : State} {e : HostAction} (h : s.TablesInv) (hact : hostAction e s = .next t) :
    t.TablesInv := by
  obtain ⟨hfreq, htree, hleaf, herror⟩ := hostAction_tables hact
  refine h.congr hfreq htree hleaf ?_
  rcases herror with herror | herror
  · exact herror ▸ h.noSingle
  · rw [herror]
    decide

theorem tablesInv_resetCore (s : State) : (resetCore s).TablesInv where
  leaves _ hnone := nomatch hnone
  noCount _ := freqAt_replicate 0#32
  sum := freqSum_zero.trans_lt (by decide)
  noSingle hsingle := nomatch hsingle

theorem tablesInv_reset : State.reset.TablesInv := { tablesInv_resetCore State.reset with }

/-- Settles O55: there is no byte, no range, no tree and no error, and FREQ is all zero. -/
theorem resetMeetsTheInvariant : Obligations.ResetMeetsTheInvariant := ⟨inv_reset, tablesInv_reset⟩

/-- Settles O57: the event is taken off, and each of the core's turn, the host's actions and reset keeps the tables. -/
theorem stepKeepsTheTables : Obligations.StepKeepsTheTables := by
  intro s t hsrc h hstep
  have htaken : ∀ es, State.TablesInv { s with inbox := es } := fun _ => { h with }
  rcases step_next hstep with ⟨_, hturn⟩ | ⟨es, _, hturn⟩ | ⟨e, es, _, hact⟩ | ⟨es, _, rfl⟩
  · exact h.coreTurn hsrc hturn
  · exact (htaken es).coreTurn hsrc hturn
  · exact (htaken es).hostAction hact
  · exact tablesInv_resetCore _

end Sys2Proof.Machine

/-! PROOF. What every command keeps: it completes and keeps the host's side, and it changes DST in its output range alone
(43_operations.md R239, 60_exceptions.md R266, R267, 70_reset_and_hazards.md R295). -/
namespace Sys2Proof.Machine

/-! ### The output range -/

/-- From s to t, DST has changed inside [OUT_LEN of s, OUT_CAP) alone, and OUT_LEN has not moved back. -/
def OutputGrows (s t : State) : Prop :=
  t.outCap = s.outCap ∧ s.outLen.toNat ≤ t.outLen.toNat ∧ KeepsDstOutside s t s.outLen.toNat s.outCap.toNat

theorem keepsDstOutside_of_eq {s t : State} (hdst : t.dst = s.dst) (hfree : t.dstFree = s.dstFree) (lo hi : Nat) :
    KeepsDstOutside s t lo hi := fun a _ => congrFun (dstRead_congr hdst hfree) a

theorem outputGrows_refl (s : State) : OutputGrows s s := ⟨rfl, Nat.le_refl _, fun _ _ => rfl⟩

/-- A part that writes no output lets it stand. -/
theorem OutputGrows.congr {s t u : State} (h : OutputGrows s t) (hcap : u.outCap = t.outCap) (hlen : u.outLen = t.outLen)
    (hdst : u.dst = t.dst) (hfree : u.dstFree = t.dstFree) : OutputGrows s u := by
  obtain ⟨htcap, htlen, htdst⟩ := h
  exact ⟨hcap.trans htcap, hlen ▸ htlen, fun a ha => (congrFun (dstRead_congr hdst hfree) a).trans (htdst a ha)⟩

theorem OutputGrows.append {s t : State} (h : OutputGrows s t) {out : List Byte}
    (hfits : t.outLen.toNat + out.length ≤ t.outCap.toNat) : OutputGrows s (append out t).state := by
  obtain ⟨hcap, hlen, hdst⟩ := h
  obtain ⟨_, hout, hread⟩ := append_fits out t hfits
  obtain ⟨_, _, hcap', _⟩ := append_keepsHostSide out t
  refine ⟨hcap'.trans hcap, by omega, fun a ha => ?_⟩
  rw [hcap] at hfits
  rw [hread, if_neg (by omega), hdst a ha]

theorem outputGrows_keptByParts (s : State) : KeptByParts (OutputGrows s) where
  output _ _ h hfits := by
    have hgrown := h.append hfits
    rwa [append_of_fits hfits] at hgrown
  counted _ h := h.congr rfl rfl rfl rfl
  dropped _ h := h.congr rfl rfl rfl rfl
  built _ _ h _ := h.congr rfl rfl rfl rfl
  parsed _ _ h _ := h.congr rfl rfl rfl rfl

/-- A run starts its output at the command's output base, with DST as it was. -/
theorem partsStart_output (i : Instr) (s : State) :
    (partsStart i s).outLen.toNat = outputStart i s ∧ (partsStart i s).outCap = s.outCap ∧
      dstRead (partsStart i s) = dstRead s := by
  cases i <;> exact ⟨rfl, rfl, dstRead_congr rfl rfl⟩

theorem runOf_keepsDstOutside (i : Instr) (s : State) :
    KeepsDstOutside s (runOf i s).state (outputStart i s) s.outCap.toNat := by
  obtain ⟨hlen, hcap, hdst⟩ := partsStart_output i s
  have hbare : (bareRun i s).state.outCap = s.outCap ∧
      KeepsDstOutside s (bareRun i s).state (outputStart i s) s.outCap.toNat := by
    by_cases hi : i = .clear
    · subst hi
      exact ⟨rfl, keepsDstOutside_of_eq rfl rfl _ _⟩
    · obtain ⟨hcap', _, hkeeps⟩ := bareRun_keeps (outputGrows_keptByParts _) (outputGrows_refl (partsStart i s))
        fun hclear => absurd hclear hi
      rw [hlen, hcap] at hkeeps
      exact ⟨hcap'.trans hcap, fun a ha => (hkeeps a ha).trans (congrFun hdst a)⟩
  obtain ⟨hcap', hkeeps⟩ := hbare
  intro a ha
  rcases runOf_state_cases i s with hrun | hrun
  · rw [hrun, hkeeps a ha]
  · rw [hrun, dstRead_unspecifyOutput_outside _ _ a (hcap'.symm ▸ ha), hkeeps a ha]

/-- The bytes the host stored to against its duty apart, completion changes DST where the run does, and a disturbed one in the
output range (70_reset_and_hazards.md R295). -/
theorem finish_keepsDstOutside {s : State} {r : Run} {o : Nat} (hr : KeepsDstOutside s r.state o s.outCap.toNat)
    (w : Written) {a : Nat} (hspoilt : a ∉ s.dstHazard) (ha : a < o ∨ s.outCap.toNat ≤ a) :
    dstRead (finish w o s r) a = dstRead s a := by
  cases hsrc : s.srcHazard with
  | false =>
    rw [finish_of_srcHazard_false hsrc]
    exact (dstRead_spoilDst _ r.state a hspoilt).trans (hr a ha)
  | true =>
    rw [finish_of_srcHazard_true hsrc]
    exact (dstRead_spoilDst _ (unstableRun w o s).state a hspoilt).trans (dstRead_unspecifyOutput_outside o s a ha)

theorem dstRead_exec_outside {i : Instr} {s t : State} (h : exec i s = .next t) {a : Nat} (hspoilt : a ∉ s.dstHazard)
    (ha : a < outputStart i s ∨ s.outCap.toNat ≤ a) : dstRead t a = dstRead s a := by
  rw [exec_eq_finish_runOf] at h
  cases h
  exact finish_keepsDstOutside (runOf_keepsDstOutside i s) _ hspoilt ha

/-- Settles O51: a run appends from the output base on and below OUT_CAP, and what is left unspecified lies there too. -/
theorem dstChangesOnlyInTheOutputRange : Obligations.DstChangesOnlyInTheOutputRange :=
  fun _ _ _ h _ => dstRead_exec_outside h

/-! ### Completion -/

theorem exec_completes (i : Instr) (s : State) : ∃ t, exec i s = .next t ∧ t.pending = .idle ∧ t.done = true ∧
    t.srcHazard = false ∧ t.dstHazard = [] ∧ KeepsHostSide s t := by
  obtain ⟨w, o, r, hexec, hr⟩ := exec_eq_finish_keepsHostSide i s
  exact ⟨_, hexec, finish_pending w o s r, finish_done w o s r, finish_srcHazard w o s r, finish_dstHazard w o s r,
    finish_keepsHostSide hr w o⟩

/-- Settles O50: every meaning is a completion, and completion keeps the host's side. -/
theorem everyCommandCompletes : Obligations.EveryCommandCompletes := exec_completes

/-! ### A disturbed source -/

theorem writtenBy_freq (i : Instr) : (writtenBy i).freq = true ↔ i ∈ [Instr.clear, .count, .encode] := by
  cases i <;> decide

theorem writtenBy_tree (i : Instr) :
    (writtenBy i).tree = true ↔ i ∈ [Instr.clear, .count, .build, .deserialize, .encode, .decode] := by
  cases i <;> decide

theorem writtenBy_leafCnt (i : Instr) : (writtenBy i).leafCnt = (writtenBy i).tree := by
  cases i <;> rfl

theorem writtenBy_payloadOff (i : Instr) :
    (writtenBy i).payloadOff = true ↔ i ∈ [Instr.clear, .deserialize, .decode] := by
  cases i <;> decide

/-- The tables of a completion on a disturbed source: drawn where the command writes them, else kept. -/
theorem finish_disturbed_tables {s : State} (h : s.srcHazard = true) (w : Written) (o : Nat) (r : Run) {t : State}
    (ht : t = finish w o s r) :
    t.freq = (if w.freq then freeFreq s.draws else s.freq) ∧
      t.freqValid = (if w.freq then (Config.freeWord s.draws 0x004).getLsbD 12 else s.freqValid) ∧
      t.tree = (if w.tree then freeTree s.draws else s.tree) ∧
      t.leafCnt = (if w.leafCnt then (Config.freeWord s.draws 0x01C).toNat % 257 else s.leafCnt) ∧
      t.payloadOff = (if w.payloadOff then Config.freeWord s.draws 0x018 else s.payloadOff) := by
  rw [ht, finish_of_srcHazard_true h]
  exact ⟨spoilDst_freq _ _, spoilDst_freqValid _ _, spoilDst_tree _ _, spoilDst_leafCnt _ _, spoilDst_payloadOff _ _⟩

/-- Settles O52: the run of a disturbed source draws what the command writes, within its type, and nothing else. -/
theorem disturbedSourceSpoilsOnlyResults : Obligations.DisturbedSourceSpoilsOnlyResults := by
  intro i s h
  obtain ⟨t, hexec, hidle, hdone, _, _, hhost⟩ := exec_completes i s
  have ht : t = finish (writtenBy i) (outputStart i s) s (runOf i s) := by
    rw [exec_eq_finish_runOf] at hexec
    cases hexec
    rfl
  obtain ⟨hfreq, hvalid, htree, hleaf, hoff⟩ := finish_disturbed_tables h _ _ _ ht
  rw [writtenBy_leafCnt] at hleaf
  refine ⟨t, hexec, hidle, hdone, hhost, fun hi => ?freq, fun hi => ?keptTree, fun hi => ?drawnTree, fun hi => ?off,
    fun a hspoilt => dstRead_exec_outside hexec hspoilt⟩
  case freq =>
    rw [← writtenBy_freq] at hi
    exact ⟨hfreq.trans (if_neg hi), hvalid.trans (if_neg hi)⟩
  case keptTree =>
    rw [← writtenBy_tree] at hi
    exact ⟨htree.trans (if_neg hi), hleaf.trans (if_neg hi)⟩
  case drawnTree =>
    rw [← writtenBy_tree] at hi
    rw [htree, hleaf, if_pos hi, if_pos hi]
    exact ⟨fun _ => freeTree_wf, by omega⟩
  case off =>
    rw [← writtenBy_payloadOff] at hi
    exact hoff.trans (if_neg hi)

/-! ### A running command under host actions -/

/-- A running word, legal or not, completes at the core's turn. -/
theorem coreTurn_completes {s : State} {w : Word} (hrun : s.pending = .running w) :
    ∃ t, coreTurn s = .next t ∧ t.pending = .idle ∧ t.done = true ∧ t.inbox = s.inbox := by
  cases hdecode : decode w with
  | ok i =>
    obtain ⟨t, hexec, hidle, hdone, _, _, _, _, _, _, _, hinbox, _⟩ := exec_completes i s
    exact ⟨t, by rw [coreTurn, hrun]; simp only [hdecode, hexec], hidle, hdone, hinbox⟩
  | error e =>
    obtain ⟨_, _, _, _, _, hinbox, _⟩ := finish_keepsHostSide (r := raise .illegalCommand s) (keepsHostSide_refl s)
      ⟨false, false, false, false⟩ s.outLen.toNat
    exact ⟨_, coreTurn_illegal hrun hdecode, rfl, rfl, hinbox⟩

theorem hostAction_of_legal {e : HostAction} (h : LegalAction e) (s : State) : ∃ t, hostAction e s = .next t := by
  cases e with
  | write off size v =>
    obtain ⟨hoff, rfl, halign⟩ := h
    exact ⟨_, hostAction_write hoff halign v s⟩
  | read off size =>
    obtain ⟨hoff, rfl, halign⟩ := h
    exact ⟨_, hostAction_read hoff halign s⟩
  | storeSrc a v => exact ⟨_, if_pos h⟩
  | storeDst a v => exact ⟨_, if_pos h⟩
  | loadDst a => exact ⟨_, if_pos h⟩

theorem step_of_host_event {s : State} {e : HostAction} {es : List Event} (h : s.inbox = .host e :: es) :
    step s = hostAction e { s with inbox := es } := by
  rw [step, h]

theorem core_run_succ {s t : State} (h : step s = .next t) (k : Nat) : core.run (k + 1) s = core.run k t := by
  have hstep : core.step s = .next t := h
  simp only [Host.Core.run, hstep]

/-- Settles O58: each host action leaves the command running and the rest of the list to come, and then the turn is the core's. -/
theorem runningCommandCompletes : Obligations.RunningCommandCompletes := by
  intro s w es hrun hinbox hlegal
  induction es generalizing s with
  | nil =>
    obtain ⟨t, hturn, hidle, hdone, hrest⟩ := coreTurn_completes hrun
    exact ⟨t, core_run_succ ((step_of_no_event hinbox).trans hturn) 0, hidle, hdone, hrest.trans hinbox⟩
  | cons e es ih =>
    obtain ⟨u, hact⟩ := hostAction_of_legal (hlegal e List.mem_cons_self) { s with inbox := es.map .host }
    obtain ⟨hrun', hinbox'⟩ : u.pending = .running w ∧ u.inbox = es.map .host := by
      obtain ⟨_, _, _, _, _, _, rfl⟩ := hostAction_running (s := { s with inbox := es.map .host }) hrun hact
      exact ⟨hrun, rfl⟩
    obtain ⟨t, hrest, hdone⟩ := ih u hrun' hinbox' fun x hx => hlegal x (List.mem_cons_of_mem e hx)
    exact ⟨t, (core_run_succ ((step_of_host_event hinbox).trans hact) _).trans hrest, hdone⟩

end Sys2Proof.Machine

/-! PROOF. The runs of the commands case by case, and how a run that raises completes (60_exceptions.md R264 to R268). -/
namespace Sys2Proof.Machine

/-! ### The cases of the runs -/

theorem append_of_overflow {out : List Byte} {s : State} (h : s.outCap.toNat < s.outLen.toNat + out.length) :
    append out s = raise .ioError s :=
  if_neg (Nat.not_le.mpr h)

theorem runBuild_of_invalid {s : State} (hvalid : s.freqValid = false) :
    runBuild s = raise .sequenceError { s with tree := none } :=
  if_pos hvalid

theorem runSerialize_of_no_tree {s : State} (htree : s.tree = none) : runSerialize s = raise .sequenceError s := by
  rw [runSerialize, htree]

theorem runSerialize_of_tree {s : State} {tr : CodeTree} (htree : s.tree = some tr) :
    runSerialize s = append (headerBytes tr) s := by
  rw [runSerialize, htree]

theorem runEncodePayload_of_no_tree {s : State} (htree : s.tree = none) :
    runEncodePayload s = raise .sequenceError s := by
  rw [runEncodePayload, htree]

theorem runEncodePayload_of_empty {s : State} {tr : CodeTree} (htree : s.tree = some tr) (hlen : s.srcLen.toNat = 0) :
    runEncodePayload s = raise .emptySource s := by
  simp only [runEncodePayload, htree, if_pos hlen]

theorem runEncodePayload_of_missing {s : State} {tr : CodeTree} (htree : s.tree = some tr) {v : Byte}
    (hv : v ∈ srcBytes s) (hcode : codes tr v = []) : runEncodePayload s = raise .symbolNotInTree s := by
  have hlen : s.srcLen.toNat ≠ 0 := srcBytes_length s ▸ (List.length_pos_of_mem hv).ne'
  have hany : ((srcBytes s).any fun v => (codes tr v).isEmpty) = true :=
    List.any_eq_true.mpr ⟨v, hv, List.isEmpty_iff.mpr hcode⟩
  simp only [runEncodePayload, htree, if_neg hlen, if_pos hany]

theorem runDecodePayload_of_no_tree {s : State} (htree : s.tree = none) :
    runDecodePayload s = raise .sequenceError s := by
  rw [runDecodePayload, htree]

/-- Framed bits that decode to bytes are a payload of those bytes (42_bitstream.md R210 to R214). -/
theorem sourcePayload_of_decodeBits {s : State} {tr : CodeTree} (hwf : tr.wf) {bs : Bits} {out : List Byte}
    (hcontent : contentBits s = some bs) (hdecode : decodeBits tr bs = some out) :
    SourcePayload s s.payloadOff.toNat tr out := by
  obtain ⟨hdistinct, _, _⟩ := hwf
  obtain ⟨hbits, hmem⟩ := decodeBits_some tr hdistinct bs out hdecode
  rw [contentBits_eq] at hcontent
  split at hcontent
  · cases hcontent
  · rename_i hlen
    split at hcontent
    · cases hcontent
    · rename_i htrailer
      exact ⟨Nat.not_lt.mp hlen, Nat.not_lt.mp htrailer, hmem, (Option.some.inj hcontent).trans hbits⟩

theorem runDecodePayload_of_no_payload {s : State} {tr : CodeTree} (htree : s.tree = some tr) (hwf : tr.wf)
    (hnone : ∀ out, ¬ SourcePayload s s.payloadOff.toNat tr out) : runDecodePayload s = raise .corruptPayload s := by
  simp only [runDecodePayload, htree]
  cases hcontent : contentBits s with
  | none => rfl
  | some bs =>
    cases hdecode : decodeBits tr bs with
    | none => simp only [hdecode]
    | some out => exact absurd (sourcePayload_of_decodeBits hwf hcontent hdecode) (hnone out)

/-! ### How a run that raises completes -/

/-- An error of class U changes nothing but STATUS. -/
theorem finish_raise_spec {s : State} (h : Undisturbed s) {e : ErrorCode} {p : ErrorCode → Bool} (hp : p e = false)
    (w : Written) (o : Nat) {t : State} (ht : t = finish w o s ((raise e s).partialOutput p o)) :
    Completed t e ∧ KeepsTables s t ∧ KeepsOutput s t ∧ KeepsHostSide s t := by
  rw [finish_undisturbed h, partialOutput_of_false hp] at ht
  subst ht
  exact ⟨⟨rfl, rfl, rfl⟩, ⟨⟨rfl, rfl⟩, rfl, rfl, rfl⟩, keepsOutput_of_eq rfl rfl rfl, keepsHostSide_refl s⟩

/-- An error of class P raised at s' leaves the tables of s', and its DST outside the output range. -/
theorem finish_partial_spec {s s' : State} (h : Undisturbed s) {e : ErrorCode} {p : ErrorCode → Bool} (hp : p e = true)
    (w : Written) (o : Nat) {t : State} (ht : t = finish w o s ((raise e s').partialOutput p o)) :
    Completed t e ∧ KeepsTables s' t ∧ KeepsDstOutside s' t o s'.outCap.toNat ∧ KeepsHostSide s' t := by
  rw [finish_undisturbed h, partialOutput_of_true hp] at ht
  subst ht
  exact ⟨⟨rfl, rfl, rfl⟩, ⟨⟨rfl, rfl⟩, rfl, rfl, rfl⟩, dstRead_unspecifyOutput_outside o s', keepsHostSide_refl s'⟩

end Sys2Proof.Machine

/-! PROOF. BUILD, SERIALIZE and DESERIALIZE: their errors, and the success of the latter two (40_tree.md R147, 41_header.md R175,
R187). -/
namespace Sys2Proof.Machine

/-! ### BUILD -/

theorem exec_build_of_raise {s : State} {e : ErrorCode} (h : Undisturbed s)
    (hrun : runBuild s = raise e { s with tree := none }) :
    exec .build s = .next { s with
      tree := none
      pending := .idle, done := true, error := e, srcHazard := false, dstHazard := [] } := by
  rw [exec, execBuild, finish_undisturbed h, hrun]
  rfl

/-- Settles O26: without FREQ_VALID, and with no positive count, the run drops the tree and raises. -/
theorem buildErrors : Obligations.BuildErrors := by
  intro s h hfail
  have hrun : runBuild s =
      raise (if s.freqValid = false then .sequenceError else .emptySource) { s with tree := none } := by
    by_cases hvalid : s.freqValid = false
    · rw [if_pos hvalid, runBuild_of_invalid hvalid]
    · rw [if_neg hvalid, runBuild_of_no_tree (Bool.eq_true_of_not_eq_false hvalid)
        (buildTree_eq_none (hfail.resolve_left hvalid))]
  exact ⟨_, exec_build_of_raise h hrun, ⟨rfl, rfl, rfl⟩, rfl, ⟨rfl, rfl⟩, rfl, rfl, keepsOutput_of_eq rfl rfl rfl,
    keepsHostSide_refl s⟩

/-! ### SERIALIZE -/

/-- The header bytes, read as the leaf count byte and the header's bit stream (30_encoding.md R113, R114). -/
theorem holdsHeader_of_holdsBytes {t : State} {o : Nat} {tr : CodeTree} (h : HoldsBytes t o (headerBytes tr)) :
    HoldsHeader t o tr := by
  have hcount : dstRead t o = BitVec.ofNat 8 (tr.leafCount % 256) := h 0 _ rfl
  refine ⟨by rw [hcount, BitVec.toNat_ofNat, Nat.mod_mod], fun i hi => pack_streamBit _ _ i _ (fun j v hv => ?_) hi⟩
  rw [Nat.add_assoc]
  exact h (1 + j) v (by rwa [headerBytes, Nat.add_comm, List.getElem?_cons_succ])

theorem exec_serialize (s : State) :
    exec .serialize s = .next (finish ⟨false, false, false, false⟩ s.outLen.toNat s
      ((runSerialize s).partialOutput (fun e => e == .ioError) s.outLen.toNat)) := rfl

/-- Settles O32: the run appends the header bytes. -/
theorem serializeWritesTheHeader : Obligations.SerializeWritesTheHeader := by
  intro s tr h htree hfits
  have hlen : s.outLen.toNat + (headerBytes tr).length = s.outLen.toNat + 1 + hdrBytes tr.leafCount := by
    rw [headerBytes_length, Nat.add_assoc]
  have hexec := exec_serialize s
  rw [runSerialize_of_tree htree] at hexec
  obtain ⟨hdone, hbytes, hout, hframe, hkeeps⟩ :=
    finish_append_spec (p := fun e => e == .ioError) h rfl (hlen ▸ hfits) _ _ rfl
  rw [hlen] at hout hframe
  exact ⟨_, hexec, hdone, holdsHeader_of_holdsBytes hbytes, hout, hframe, hkeeps⟩

/-- Settles O33: the run raises where there is no tree, and where the append does not fit. -/
theorem serializeErrors : Obligations.SerializeErrors := by
  refine ⟨fun s h htree => ?noTree, fun s tr h htree hover => ?overflow⟩
  case noTree => exact ⟨_, runSerialize_of_no_tree htree ▸ exec_serialize s, finish_raise_spec h rfl _ _ rfl⟩
  case overflow =>
    have hrun : runSerialize s = raise .ioError s := by
      rw [runSerialize_of_tree htree, append_of_overflow (by rwa [headerBytes_length, ← Nat.add_assoc])]
    have hexec := exec_serialize s
    rw [hrun] at hexec
    exact ⟨_, hexec, finish_partial_spec h rfl _ _ rfl⟩

/-! ### DESERIALIZE -/

/-- The header lies below SRC_LEN, so 32 bits hold the payload's offset. -/
theorem SourceHeader.payloadOff_toNat {s : State} {tr : CodeTree} (h : SourceHeader s tr) :
    (BitVec.ofNat 32 (1 + hdrBytes tr.leafCount)).toNat = 1 + hdrBytes tr.leafCount := by
  obtain ⟨_, _, hlen, _⟩ := h
  rw [BitVec.toNat_ofNat, Nat.mod_eq_of_lt (Nat.lt_of_le_of_lt hlen s.srcLen.isLt)]

/-- Settles O34: the parse gives the tree of the header back. -/
theorem deserializeInstallsTheTree : Obligations.DeserializeInstallsTheTree := fun s _ h hfile =>
  ⟨_, exec_deserialize_of_sourceHeader h hfile, ⟨rfl, rfl, rfl⟩, rfl, rfl, hfile.payloadOff_toNat, ⟨rfl, rfl⟩,
    keepsOutput_of_eq rfl rfl rfl, keepsHostSide_refl s⟩

/-- Settles O35: whatever else SRC begins with, a check fails. -/
theorem deserializeRejectsTheRest : Obligations.DeserializeRejectsTheRest := fun s h hfile =>
  ⟨_, exec_deserialize_of_no_sourceHeader h hfile, ⟨rfl, rfl, rfl⟩, rfl, rfl, rfl, ⟨rfl, rfl⟩,
    keepsOutput_of_eq rfl rfl rfl, keepsHostSide_refl s⟩

end Sys2Proof.Machine

/-! PROOF. The lengths of codes, and the tree of a table (10_state.md R37, R44, 40_tree.md R149). -/
namespace Sys2Proof.Machine

/-- A path takes one step for each internal node it passes. -/
theorem path_length_le {t : CodeTree} {v : Byte} {p : Bits} (h : t.path v = some p) : p.length ≤ t.internalNodes := by
  induction t generalizing p with
  | leaf u =>
    simp only [CodeTree.path] at h
    split at h <;> cases h
    exact Nat.le_refl _
  | node l r ihl ihr =>
    rw [CodeTree.internalNodes]
    rcases path_node_eq_some h with ⟨q, hq, rfl⟩ | ⟨q, hq, rfl⟩
    · have := ihl hq
      rw [List.length_cons]
      omega
    · have := ihr hq
      rw [List.length_cons]
      omega

theorem codes_length_pos {t : CodeTree} {v : Byte} (hv : v ∈ t.leaves) : 1 ≤ (codes t v).length :=
  List.length_pos_iff.mpr (codes_ne_nil hv)

/-- A tree of two leaves or more has codes shorter than its leaf count. -/
theorem codes_length_lt {t : CodeTree} {v : Byte} (hv : v ∈ t.leaves) (hcount : 2 ≤ t.leafCount) :
    (codes t v).length ≤ t.leafCount - 1 := by
  cases t with
  | leaf u => exact absurd hcount (Nat.not_succ_le_self 1)
  | node l r =>
    have hnodes := internalNodes_add_one (.node l r)
    have hpath := path_length_le (path_eq_codes hv)
    omega

theorem codes_of_not_mem {t : CodeTree} {v : Byte} (hv : v ∉ t.leaves) : codes t v = [] := by
  cases t with
  | leaf u => exact if_neg fun huv => hv (List.mem_singleton.mpr huv.symm)
  | node l r =>
    have hpath : (CodeTree.node l r).path v = none :=
      Option.not_isSome_iff_eq_none.mp (mt path_isSome.mp hv)
    rw [codes, hpath, Option.getD_none]

/-- Settles O29: a lone leaf has a code of one bit, a larger tree of at most 256 leaves has codes of at most 255. -/
theorem codesBelongToTheLeaves : Obligations.CodesBelongToTheLeaves := by
  intro tr v hwf
  obtain ⟨_, _, hle⟩ := hwf
  refine ⟨fun hv => ⟨codes_length_pos hv, ?_⟩, codes_of_not_mem⟩
  by_cases hcount : 2 ≤ tr.leafCount
  · exact (codes_length_lt hv hcount).trans (by omega)
  · cases tr with
    | leaf u => rw [codes]; split <;> decide
    | node l r =>
      have := leafCount_pos l
      have := leafCount_pos r
      rw [leafCount_node] at hcount
      omega

theorem exists_of_presentValues_ne_zero {f : Vector Word 256} (h : presentValues f ≠ 0) : ∃ v, freqAt f v ≠ 0#32 := by
  rw [← symbols_length] at h
  obtain ⟨v, hv⟩ := List.exists_mem_of_length_pos (Nat.pos_of_ne_zero h)
  exact ⟨v, mem_symbols.mp hv⟩

/-- Settles O27: the leaves are the present values, and a tree of distinct leaves has the counts and code lengths of any tree. -/
theorem builtTreeHasOneLeafPerValue : Obligations.BuiltTreeHasOneLeafPerValue := by
  intro f hpresent
  obtain ⟨tr, htree, _⟩ := buildTree_buildsFrom (exists_of_presentValues_ne_zero hpresent)
  obtain ⟨hdistinct, _, _⟩ := wf_of_buildTree htree
  exact ⟨tr, htree, hdistinct, fun v => mem_leaves_of_buildTree htree,
    (leafCount_of_buildTree htree).symm, internalNodes_add_one tr,
    fun hcount v hv => ⟨codes_length_pos hv, codes_length_lt hv hcount⟩⟩

end Sys2Proof.Machine

/-! PROOF. Checks (c) and (e) of the parse loop never fire (41_header.md R184). -/
namespace Sys2Proof.Machine

/-- The bits read, counted: nine for each leaf decided and one for each internal node, of which there are at most L - 1 and,
with the holes, one fewer than leaves. -/
theorem Parse.Reads.counts {bit : Nat → Bool} {L HB : Nat} {p : Parse} (h : p.Reads bit L HB) :
    p.i = 9 * p.root.values.length + p.z ∧ p.root.holes + p.root.values.length = p.z + 1 ∧ p.z ≤ L - 1 := by
  have hbits := bits_length p.root
  have hholes := holes_add_values p.root
  rw [h.bits, List.length_map, List.length_range] at hbits
  rw [h.inner] at hbits hholes
  exact ⟨hbits, hholes, h.few⟩

/-- Settles O38: while a hole is left at most L - 1 leaves are decided, so nine bits are left too; and the header is used up with
L leaves decided, which is when no hole is left. -/
theorem checksCAndENeverFire : Obligations.ChecksCAndENeverFire := by
  intro bit L n p hL hloop
  obtain ⟨hreads, _⟩ := parseLoop_reads hloop (start_reads bit L (10 * L - 1))
  obtain ⟨hi, hholes, hfew⟩ := hreads.counts
  refine ⟨fun _ _ hhole => ?checkC, fun hend => ?checkE⟩
  case checkC =>
    obtain ⟨r, hr⟩ := hhole
    have hopen : p.root.holes ≠ 0 := fun h0 => nomatch (fill_eq_none.mpr h0).symm.trans hr
    omega
  case checkE =>
    obtain ⟨tr, htr, _⟩ := complete_of_holes (root := p.root) (by omega)
    exact ⟨tr, htr⟩

end Sys2Proof.Machine

/-! PROOF. ENCODE_PAYLOAD and DECODE_PAYLOAD: the errors of both, and the success of the latter (42_bitstream.md R204, R210 to
R215). -/
namespace Sys2Proof.Machine

theorem exec_encodePayload (s : State) :
    exec .encodePayload s = .next (finish ⟨false, false, false, false⟩ s.outLen.toNat s
      ((runEncodePayload s).partialOutput (fun e => e == .ioError) s.outLen.toNat)) := rfl

theorem exec_decodePayload (s : State) :
    exec .decodePayload s = .next (finish ⟨false, false, false, false⟩ s.outLen.toNat s
      ((runDecodePayload s).partialOutput (fun e => e == .ioError || e == .corruptPayload) s.outLen.toNat)) := rfl

/-! ### ENCODE_PAYLOAD -/

theorem srcLen_toNat_ne_zero {s : State} (h : s.srcLen ≠ 0#32) : s.srcLen.toNat ≠ 0 :=
  fun h0 => h (BitVec.eq_of_toNat_eq h0)

theorem mem_srcBytes {s : State} {a : Nat} (ha : a < s.srcLen.toNat) : srcRead s a ∈ srcBytes s :=
  List.mem_map_of_mem (List.mem_range.mpr ha)

/-- Settles O40: each check raises before the append, and the append raises where the payload does not fit. -/
theorem encodePayloadErrors : Obligations.EncodePayloadErrors := by
  refine ⟨fun s e h hcase => ?classU, fun s tr h htree hlen hcodes hover => ?overflow⟩
  case classU =>
    have hrun : runEncodePayload s = raise e s ∧ (e == .ioError) = false := by
      rcases hcase with ⟨htree, rfl⟩ | ⟨htree, hlen, rfl⟩ | ⟨tr, a, htree, ha, hcode, rfl⟩
      · exact ⟨runEncodePayload_of_no_tree htree, rfl⟩
      · obtain ⟨tr, htree⟩ := Option.isSome_iff_exists.mp htree
        exact ⟨runEncodePayload_of_empty htree (congrArg BitVec.toNat hlen), rfl⟩
      · exact ⟨runEncodePayload_of_missing htree (mem_srcBytes ha) hcode, rfl⟩
    obtain ⟨hrun, hclass⟩ := hrun
    have hexec := exec_encodePayload s
    rw [hrun] at hexec
    exact ⟨_, hexec, finish_raise_spec (p := fun e => e == .ioError) h hclass _ _ rfl⟩
  case overflow =>
    have hcodes' : ∀ v ∈ srcBytes s, codes tr v ≠ [] := by simpa [srcBytes] using hcodes
    have hexec := exec_encodePayload s
    rw [runEncodePayload_of_codes htree (srcLen_toNat_ne_zero hlen) hcodes',
      append_of_overflow (by rwa [payloadBytes_length])] at hexec
    exact ⟨_, hexec, finish_partial_spec h rfl _ _ rfl⟩

/-! ### DECODE_PAYLOAD -/

/-- Settles O41: the run appends the bytes whose codes the content bits are. -/
theorem decodePayloadEmitsTheBytes : Obligations.DecodePayloadEmitsTheBytes := fun _ _ _ h htree _ hpayload hfits =>
  ⟨_, exec_decodePayload_of_sourcePayload htree hpayload, finish_append_spec h rfl hfits _ _ rfl⟩

/-- Under a tree the run raises where SRC holds no payload, and where the bytes of the payload do not fit. -/
theorem runDecodePayload_error {s : State} {tr : CodeTree} {e : ErrorCode} (htree : s.tree = some tr) (hwf : tr.wf)
    (hcase : ((∀ out, ¬ SourcePayload s s.payloadOff.toNat tr out) ∧ e = .corruptPayload) ∨
      ∃ out, SourcePayload s s.payloadOff.toNat tr out ∧ s.outCap.toNat < s.outLen.toNat + out.length ∧ e = .ioError) :
    runDecodePayload s = raise e s := by
  rcases hcase with ⟨hnone, rfl⟩ | ⟨out, hpayload, hover, rfl⟩
  · exact runDecodePayload_of_no_payload htree hwf hnone
  · rw [runDecodePayload_of_sourcePayload htree hpayload, append_of_overflow hover]

/-- Settles O42: with no tree the error is of class U, under a tree it is one of the two of class P. -/
theorem decodePayloadErrors : Obligations.DecodePayloadErrors := by
  refine ⟨fun s h htree => ?noTree, fun s tr e h htree hwf hcase => ?classP⟩
  case noTree =>
    have hexec := exec_decodePayload s
    rw [runDecodePayload_of_no_tree htree] at hexec
    exact ⟨_, hexec, finish_raise_spec h rfl _ _ rfl⟩
  case classP =>
    have hclass : (e == .ioError || e == .corruptPayload) = true := by
      rcases hcase with ⟨_, rfl⟩ | ⟨_, _, _, rfl⟩ <;> rfl
    have hexec := exec_decodePayload s
    rw [runDecodePayload_error htree hwf hcase] at hexec
    exact ⟨_, hexec, finish_partial_spec (p := fun e => e == .ioError || e == .corruptPayload) h hclass _ _ rfl⟩

end Sys2Proof.Machine

/-! PROOF. ENCODE: the file in DST where it fits, and the errors (43_operations.md R231, R240). -/
namespace Sys2Proof.Machine

/-! ### Two outputs, one behind the other -/

theorem append_keepsTables (out : List Byte) (s : State) : KeepsTables s (append out s).state := by
  rcases append_cases out s with ⟨_, hrun⟩ | ⟨_, hrun⟩ <;> rw [hrun] <;> exact ⟨⟨rfl, rfl⟩, rfl, rfl, rfl⟩

theorem append_keepsDstOutside (out : List Byte) (s : State) :
    KeepsDstOutside s (append out s).state s.outLen.toNat s.outCap.toNat := by
  rcases append_cases out s with ⟨hfits, _⟩ | ⟨_, hrun⟩
  · obtain ⟨_, _, hkeeps⟩ := (outputGrows_refl s).append hfits
    exact hkeeps
  · rw [hrun]
    exact fun _ _ => rfl

/-- Two outputs that do not fit together end in IO_ERROR, behind the first of them where that one fits. -/
theorem append_andThen_append_overflow {a b : List Byte} {s : State}
    (hover : s.outCap.toNat < s.outLen.toNat + (a ++ b).length) :
    (append a s).andThen (append b) = raise .ioError (append a s).state := by
  rcases append_cases a s with ⟨hfits, _⟩ | ⟨_, hrun⟩
  · obtain ⟨hok, hlen, _⟩ := append_fits a s hfits
    obtain ⟨_, _, hcap, _⟩ := append_keepsHostSide a s
    rw [andThen_of_none hok, append_of_overflow]
    rw [hlen, hcap, Nat.add_assoc, ← List.length_append]
    exact hover
  · rw [hrun, andThen_of_error (by simp)]
    rfl

theorem andThen_congr {r : Run} {f g : State → Run} (h : f r.state = g r.state) : r.andThen f = r.andThen g := by
  rw [Run.andThen, Run.andThen, h]

theorem holdsBytes_append {t : State} {o : Nat} {a b : List Byte} (h : HoldsBytes t o (a ++ b)) :
    HoldsBytes t o a ∧ HoldsBytes t (o + a.length) b := by
  refine ⟨fun k v hv => h k v ?_, fun k v hv => ?_⟩
  · rw [List.getElem?_append_left (List.getElem?_eq_some_iff.mp hv).1, hv]
  · rw [Nat.add_assoc]
    refine h (a.length + k) v ?_
    rw [List.getElem?_append_right (Nat.le_add_right _ _), Nat.add_sub_cancel_left, hv]

/-! ### The run -/

/-- With a tree whose leaves are the source's bytes, ENCODE is the append of the header and then of the payload. -/
theorem runEncode_eq_appends {s : State} {tr : CodeTree} (htree : buildTree (countTable (srcBytes s)) = some tr)
    (hne : srcBytes s ≠ []) (hmem : ∀ v ∈ srcBytes s, v ∈ tr.leaves) :
    runEncode s = (append (headerBytes tr) (encodeStart s tr)).andThen
      (append (payloadBytes ((srcBytes s).flatMap (codes tr)))) := by
  have hsrc := srcBytes_encodeStart s tr
  have hbuild : runBuild (countedStart s) = succeed (encodeStart s tr) :=
    runBuild_of_tree rfl ((congrArg buildTree (countedStart_freq s)).trans htree)
  have hpayload := runEncodePayload_append (headerBytes tr) (s := encodeStart s tr) rfl (hsrc ▸ hne) (hsrc ▸ hmem)
  rw [runEncode_eq, hbuild, andThen_of_none (succeed_error _), succeed_state, runSerialize_of_tree rfl,
    andThen_congr hpayload, hsrc]

/-- A source whose counts give no tree stops ENCODE at BUILD. -/
theorem runEncode_eq_raise {s : State} (htree : buildTree (countTable (srcBytes s)) = none) :
    runEncode s = raise .emptySource { countedStart s with tree := none } := by
  have hbuild : runBuild (countedStart s) = raise .emptySource { countedStart s with tree := none } :=
    runBuild_of_no_tree rfl (by rwa [countedStart_freq])
  have hstop : (raise .emptySource { countedStart s with tree := none }).error ≠ .none := by simp
  rw [runEncode_eq, hbuild, andThen_of_error hstop, andThen_of_error hstop]

/-! ### The command -/

theorem encodeStart_leafCnt {s : State} {tr : CodeTree} (htree : buildTree (countTable (srcBytes s)) = some tr) :
    (encodeStart s tr).leafCnt = tr.leafCount := by
  rw [← leafCount_of_buildTree htree, ← countedStart_freq, encodeStart]

/-- The tables of a completion that keeps those of `encodeStart`. -/
theorem tables_of_encodeStart {s t : State} {tr : CodeTree} (htree : buildTree (countTable (srcBytes s)) = some tr)
    (h : KeepsTables (encodeStart s tr) t) :
    t.freq = countTable (srcBytes s) ∧ t.freqValid = true ∧ t.tree = some tr ∧ t.leafCnt = tr.leafCount ∧
      t.payloadOff = s.payloadOff := by
  obtain ⟨⟨hfreq, hvalid⟩, ht, hleaf, hoff⟩ := h
  exact ⟨hfreq.trans (countedStart_freq s), hvalid, ht, hleaf.trans (encodeStart_leafCnt htree), hoff⟩

theorem fileBytes_length (tr : CodeTree) (x : List Byte) :
    (fileBytes tr x).length = 2 + hdrBytes tr.leafCount + divCeil (x.flatMap (codes tr)).length 8 := by
  rw [fileBytes, List.length_append, headerBytes_length, payloadBytes_length]
  omega

theorem KeepsTables.trans {s t u : State} (hst : KeepsTables s t) (htu : KeepsTables t u) : KeepsTables s u := by
  obtain ⟨⟨hfreq, hvalid⟩, htree, hleaf, hoff⟩ := htu
  rwa [KeepsTables, KeepsFreq, hfreq, hvalid, htree, hleaf, hoff]

/-- Where the file does not fit, ENCODE raises IO_ERROR with the tables already set, and whatever part of the file it wrote
lies in the output range. -/
theorem finish_encode_overflow {s : State} {tr : CodeTree} (h : Undisturbed s)
    (htree : buildTree (countTable (srcBytes s)) = some tr) (hne : srcBytes s ≠ [])
    (hmem : ∀ v ∈ srcBytes s, v ∈ tr.leaves) (hover : s.outCap.toNat < (fileBytes tr (srcBytes s)).length) {t : State}
    (ht : t = finish ⟨true, true, true, false⟩ 0 s ((runEncode s).partialOutput (fun e => e != .none) 0)) :
    Completed t .ioError ∧ KeepsTables (encodeStart s tr) t ∧ KeepsDstOutside s t 0 s.outCap.toNat ∧ KeepsHostSide s t := by
  have hroom : (encodeStart s tr).outCap.toNat < (encodeStart s tr).outLen.toNat + (fileBytes tr (srcBytes s)).length :=
    hover.trans_eq (Nat.zero_add _).symm
  rw [runEncode_eq_appends htree hne hmem, append_andThen_append_overflow hroom] at ht
  obtain ⟨hdone, htables, hframe, hhost⟩ := finish_partial_spec h rfl _ _ ht
  have hhost' := append_keepsHostSide (headerBytes tr) (encodeStart s tr)
  have ⟨_, _, hcap, _⟩ := hhost'
  rw [hcap] at hframe
  exact ⟨hdone, (append_keepsTables _ _).trans htables,
    fun a ha => (hframe a ha).trans (append_keepsDstOutside (headerBytes tr) (encodeStart s tr) a ha), hhost'.trans hhost⟩

/-- The counts of a source that is not empty give a tree, and its leaves are the bytes of the source. -/
theorem exists_tree_of_source {s : State} (hlen : s.srcLen ≠ 0#32) :
    srcBytes s ≠ [] ∧ ∃ tr, buildTree (countTable (srcBytes s)) = some tr ∧ BuildsFrom (countTable (srcBytes s)) tr ∧
      ∀ v ∈ srcBytes s, v ∈ tr.leaves := by
  have hpresent := fun v => freqAt_countTable_ne_zero (srcBytes_length s ▸ s.srcLen.isLt) (v := v)
  have hne : srcBytes s ≠ [] :=
    List.ne_nil_of_length_pos (srcBytes_length s ▸ Nat.pos_of_ne_zero (srcLen_toNat_ne_zero hlen))
  obtain ⟨v, hv⟩ := List.exists_mem_of_ne_nil _ hne
  obtain ⟨tr, htree, hbuilds⟩ := buildTree_buildsFrom ⟨v, (hpresent v).mpr hv⟩
  exact ⟨hne, tr, htree, hbuilds, fun v hv => (mem_leaves_of_buildTree htree).mpr ((hpresent v).mpr hv)⟩

/-- Settles O45: the run appends the header and the payload behind it, or raises where they do not fit together. -/
theorem encodeWritesTheFile : Obligations.EncodeWritesTheFile := by
  intro s h hlen
  obtain ⟨hne, tr, htree, hbuilds, hmem⟩ := exists_tree_of_source hlen
  refine ⟨countTable (srcBytes s), tr, countsSource_countTable s, hbuilds, ?_⟩
  intro P H n
  have hn : (fileBytes tr (srcBytes s)).length = n := fileBytes_length tr _
  refine ⟨_, exec_encode s, ?_⟩
  by_cases hfits : n ≤ s.outCap.toNat
  · obtain ⟨hdone, hout, hbytes, hframe, htables, hhost⟩ := finish_composite_spec (s' := encodeStart s tr) h h
      (runEncode_of_tree htree hne hmem (hn ▸ hfits)) rfl (hn ▸ hfits) ⟨true, true, true, false⟩ rfl
    obtain ⟨hfreq, hvalid, ht, hleaf, hoff⟩ := tables_of_encodeStart htree htables
    obtain ⟨hheader, hpayload⟩ := holdsBytes_append hbytes
    rw [Nat.zero_add, headerBytes_length] at hpayload
    rw [hn] at hout hframe
    exact ⟨hfreq, hvalid, ht, hleaf, hoff, hhost,
      fun _ => ⟨hdone, holdsHeader_of_holdsBytes hheader, holdsPayload_of_holdsBytes hpayload, hout, hframe⟩,
      fun hover => absurd hfits (Nat.not_le.mpr hover)⟩
  · obtain ⟨hdone, htables, hframe, hhost⟩ := finish_encode_overflow h htree hne hmem (hn ▸ Nat.not_le.mp hfits) rfl
    obtain ⟨hfreq, hvalid, ht, hleaf, hoff⟩ := tables_of_encodeStart htree htables
    exact ⟨hfreq, hvalid, ht, hleaf, hoff, hhost, fun hle => absurd hle hfits, fun _ => ⟨hdone, hframe⟩⟩

theorem countedStart_leafCnt (s : State) : (countedStart s).leafCnt = (symbols (countedStart s).freq).length := by
  rw [countedStart, runCount, succeed_state]

theorem symbols_eq_nil {f : Vector Word 256} (h : ∀ v, freqAt f v = 0#32) : symbols f = [] :=
  List.eq_nil_iff_forall_not_mem.mpr fun v hv => mem_symbols.mp hv (h v)

/-- Settles O46: an empty source has no positive count, so BUILD raises with the counts already set. -/
theorem encodeRejectsTheEmptySource : Obligations.EncodeRejectsTheEmptySource := by
  intro s h hlen
  have hnil : srcBytes s = [] := List.length_eq_zero_iff.mp ((srcBytes_length s).trans (congrArg BitVec.toNat hlen))
  have hzero : ∀ v, freqAt (countTable (srcBytes s)) v = 0#32 := fun v => by
    rw [hnil, freqAt_countTable, List.count_nil]
  have hexec := exec_encode s
  rw [runEncode_eq_raise (buildTree_eq_none hzero)] at hexec
  obtain ⟨hdone, ⟨⟨hfreq, hvalid⟩, htree, hleaf, hoff⟩, hframe, hhost⟩ :=
    finish_partial_spec (s' := { countedStart s with tree := none }) (e := .emptySource) (p := fun e => e != .none) h rfl
      ⟨true, true, true, false⟩ 0 rfl
  have hcounts : State.leafCnt { countedStart s with tree := none } = 0 := by
    dsimp only
    rw [countedStart_leafCnt, countedStart_freq, symbols_eq_nil hzero, List.length_nil]
  have hcounted := fun v => (congrArg (freqAt · v) (countedStart_freq s)).trans (hzero v)
  exact ⟨_, hexec, hdone, fun v => (congrArg (freqAt · v) hfreq).trans (hcounted v), hvalid, htree, hleaf.trans hcounts,
    hoff, hframe, hhost⟩

end Sys2Proof.Machine

/-! PROOF. DECODE: the bytes of a good file, and the errors (43_operations.md R232, R240). -/
namespace Sys2Proof.Machine

/-- Settles O47: DESERIALIZE installs the tree of the header, and under it the payload's bytes are appended at offset 0. -/
theorem decodeRestoresTheBytes : Obligations.DecodeRestoresTheBytes := by
  intro s tr out h hheader hpayload hfits
  obtain ⟨hdone, hlen, hbytes, hframe, ⟨hfreq, htree, hleaf, hoff⟩, hhost⟩ := finish_composite_spec
    (s' := decodeStart s tr) h h (runDecode_of_file hheader hpayload) rfl hfits ⟨false, true, true, true⟩ rfl
  exact ⟨_, exec_decode s, hdone, hbytes, hlen, hframe, htree, hleaf,
    (congrArg BitVec.toNat hoff).trans hheader.payloadOff_toNat, hfreq, hhost⟩

theorem runDecode_of_no_sourceHeader {s : State} (hfile : ∀ tr, ¬ SourceHeader s tr) :
    runDecode s = raise .corruptHeader { s with outLen := 0#32, tree := none } := by
  have hdeserialize : runDeserialize { s with outLen := 0#32 } =
      raise .corruptHeader { s with outLen := 0#32, tree := none } :=
    runDeserialize_of_no_sourceHeader (s := { s with outLen := 0#32 }) hfile
  rw [runDecode, hdeserialize, andThen_of_error (by simp)]

/-- After a good header DECODE ends as DECODE_PAYLOAD does under the tree of the header. -/
theorem runDecode_of_sourceHeader {s : State} {tr : CodeTree} (hheader : SourceHeader s tr) :
    runDecode s = runDecodePayload (decodeStart s tr) := by
  have hdeserialize : runDeserialize { s with outLen := 0#32 } = succeed (decodeStart s tr) :=
    runDeserialize_of_sourceHeader hheader
  rw [runDecode, hdeserialize, andThen_of_none (succeed_error _), succeed_state]

theorem decodeStart_payloadOff {s : State} {tr : CodeTree} (hheader : SourceHeader s tr) :
    (decodeStart s tr).payloadOff.toNat = 1 + hdrBytes tr.leafCount :=
  hheader.payloadOff_toNat

theorem decodeStart_outLen (s : State) (tr : CodeTree) : (decodeStart s tr).outLen.toNat = 0 := rfl

/-- Settles O48: the run stops at the header, or after it at the payload with the tables of the header installed. -/
theorem decodeErrors : Obligations.DecodeErrors := by
  refine ⟨fun s h hfile => ?header, fun s tr e h hheader hcase => ?payload⟩
  case header =>
    have hexec := exec_decode s
    rw [runDecode_of_no_sourceHeader hfile] at hexec
    obtain ⟨hdone, ⟨hfreq, htree, hleaf, hoff⟩, hframe, hhost⟩ :=
      finish_partial_spec (p := fun e => e != .none) (e := .corruptHeader) h rfl ⟨false, true, true, true⟩ 0 rfl
    exact ⟨_, hexec, hdone, htree, hleaf, hoff, hfreq, hframe, hhost⟩
  case payload =>
    have hclass : (e != .none) = true := by
      rcases hcase with ⟨_, rfl⟩ | ⟨_, _, _, rfl⟩ <;> rfl
    have hrun : runDecodePayload (decodeStart s tr) = raise e (decodeStart s tr) := by
      refine runDecodePayload_error rfl hheader.wf ?_
      rw [decodeStart_payloadOff hheader, decodeStart_outLen]
      simp only [Nat.zero_add]
      exact hcase
    have hexec := exec_decode s
    rw [runDecode_of_sourceHeader hheader, hrun] at hexec
    obtain ⟨hdone, ⟨hfreq, htree, hleaf, hoff⟩, hframe, hhost⟩ :=
      finish_partial_spec (p := fun e => e != .none) h hclass ⟨false, true, true, true⟩ 0 rfl
    exact ⟨_, hexec, hdone, htree, hleaf, (congrArg BitVec.toNat hoff).trans hheader.payloadOff_toNat, hfreq, hframe,
      hhost⟩

end Sys2Proof.Machine

/-! PROOF. What no run reads: the bytes of SRC at SRC_LEN and above, and the notes of the DST bytes the host stored to
(43_operations.md R242, 40_tree.md R142, 70_reset_and_hazards.md R295). -/
namespace Sys2Proof.Machine

/-! ### The two fields exchanged -/

/-- s with other bytes in SRC and other notes of the DST bytes the host stored to. -/
def withSource (m : List Host.Cell) (notes : List Nat) (s : State) : State := { s with src := m, dstHazard := notes }

def Run.withSource (m : List Host.Cell) (notes : List Nat) (r : Run) : Run := ⟨Machine.withSource m notes r.state, r.error⟩

section
variable (m : List Host.Cell) (notes : List Nat) (s : State)

@[simp] theorem withSource_tree : (withSource m notes s).tree = s.tree := rfl
@[simp] theorem withSource_srcLen : (withSource m notes s).srcLen = s.srcLen := rfl

end

/-- The bytes m read as SRC does below SRC_LEN. -/
def SameSource (m : List Host.Cell) (s : State) : Prop :=
  ∀ a, a < s.srcLen.toNat → srcRead { s with src := m } a = srcRead s a

theorem sameSource_self (s : State) : SameSource s.src s := fun _ _ => rfl

theorem SameSource.of_keepsHostSide {m : List Host.Cell} {s t : State} (h : SameSource m s) (ht : KeepsHostSide s t) :
    SameSource m t := by
  obtain ⟨_, hlen, _, _, hsrc, _, _⟩ := ht
  intro a ha
  rw [srcRead_congr hsrc, ← h a (hlen ▸ ha)]
  rfl

/-! ### What the runs read of SRC -/

section
variable {m : List Host.Cell} {s : State} (h : SameSource m s) (notes : List Nat)
include h

theorem srcBytes_withSource : srcBytes (withSource m notes s) = srcBytes s :=
  List.map_congr_left fun a ha => h a (List.mem_range.mp ha)

/-- The header's bytes lie below SRC_LEN where the checks before the parse pass (41_header.md R180). -/
theorem hbit_withSource {L i : Nat} (hlen : 1 + hdrBytes L ≤ s.srcLen.toNat) (hi : i < 10 * L - 1) :
    hbit (withSource m notes s) i = hbit s i := by
  have hbits := headerBits_le L
  exact congrArg (·.getLsbD (i % 8)) (h (1 + i / 8) (by omega))

/-- So do the payload's bytes and the trailer where the framing is right (42_bitstream.md R210). -/
theorem contentBits_withSource : contentBits (withSource m notes s) = contentBits s := by
  rw [contentBits_eq, contentBits_eq s]
  by_cases hlen : s.srcLen.toNat < s.payloadOff.toNat + 2
  · exact (if_pos hlen).trans (if_pos hlen).symm
  · have htrailer : sourceTrailer (withSource m notes s) = sourceTrailer s :=
      congrArg BitVec.toNat (h (s.srcLen.toNat - 1) (by omega))
    have hbits : ∀ j ∈ List.range (8 * (s.srcLen.toNat - s.payloadOff.toNat - 1) - sourceTrailer s),
        cbit (withSource m notes s) j = cbit s j := fun j hj => by
      rw [List.mem_range] at hj
      exact congrArg (·.getLsbD (j % 8)) (h (s.payloadOff.toNat + j / 8) (by omega))
    rw [htrailer, ← List.map_congr_left hbits]
    rfl

end

/-! ### The parts of a run -/

theorem append_withSource (m : List Host.Cell) (notes : List Nat) (out : List Byte) (s : State) :
    append out (withSource m notes s) = (append out s).withSource m notes := by
  rcases append_cases out s with ⟨hfits, hrun⟩ | ⟨hover, hrun⟩
  · rw [hrun, append_of_fits (s := withSource m notes s) hfits]
    rfl
  · rw [hrun, append_of_overflow (s := withSource m notes s) hover]
    rfl

theorem runBuild_withSource (m : List Host.Cell) (notes : List Nat) (s : State) :
    runBuild (withSource m notes s) = (runBuild s).withSource m notes := by
  by_cases hvalid : s.freqValid = true
  · cases htree : buildTree s.freq with
    | none =>
      rw [runBuild_of_no_tree hvalid htree, runBuild_of_no_tree (s := withSource m notes s) hvalid htree]
      rfl
    | some tr =>
      rw [runBuild_of_tree hvalid htree, runBuild_of_tree (s := withSource m notes s) hvalid htree]
      rfl
  · have hinvalid := Bool.eq_false_of_not_eq_true hvalid
    rw [runBuild_of_invalid hinvalid, runBuild_of_invalid (s := withSource m notes s) hinvalid]
    rfl

theorem runSerialize_withSource (m : List Host.Cell) (notes : List Nat) (s : State) :
    runSerialize (withSource m notes s) = (runSerialize s).withSource m notes := by
  cases htree : s.tree with
  | none =>
    rw [runSerialize_of_no_tree htree, runSerialize_of_no_tree (s := withSource m notes s) htree]
    rfl
  | some tr =>
    rw [runSerialize_of_tree htree, runSerialize_of_tree (s := withSource m notes s) htree, append_withSource]

section
variable {m : List Host.Cell} {s : State} (h : SameSource m s) (notes : List Nat)
include h

theorem runCount_withSource : runCount (withSource m notes s) = (runCount s).withSource m notes := by
  rw [runCount, runCount, srcBytes_withSource h notes]
  simp only [succeed, Run.withSource, withSource]

/-- SRC begins with the same header. -/
theorem sourceHeader_withSource (tr : CodeTree) : SourceHeader (withSource m notes s) tr ↔ SourceHeader s tr := by
  unfold SourceHeader
  by_cases hlen : 1 + hdrBytes tr.leafCount ≤ s.srcLen.toNat
  · have hcount : srcRead (withSource m notes s) 0 = srcRead s 0 := h 0 (by omega)
    have hbits := List.map_congr_left fun i hi => hbit_withSource h notes hlen (List.mem_range.mp hi)
    rw [hcount, hbits, withSource_srcLen]
  · rw [withSource_srcLen]
    simp only [hlen, false_and, and_false]

theorem runDeserialize_withSource :
    runDeserialize (withSource m notes s) = (runDeserialize s).withSource m notes := by
  have hheader := sourceHeader_withSource h notes
  by_cases hfile : ∃ tr, SourceHeader s tr
  · obtain ⟨tr, htr⟩ := hfile
    rw [runDeserialize_of_sourceHeader htr, runDeserialize_of_sourceHeader ((hheader tr).mpr htr)]
    rfl
  · rw [runDeserialize_of_no_sourceHeader (not_exists.mp hfile),
      runDeserialize_of_no_sourceHeader fun tr htr => hfile ⟨tr, (hheader tr).mp htr⟩]
    rfl

theorem runEncodePayload_withSource :
    runEncodePayload (withSource m notes s) = (runEncodePayload s).withSource m notes := by
  have hbytes := srcBytes_withSource h notes
  cases htree : s.tree with
  | none =>
    rw [runEncodePayload_of_no_tree htree, runEncodePayload_of_no_tree (s := withSource m notes s) htree]
    rfl
  | some tr =>
    by_cases hlen : s.srcLen.toNat = 0
    · rw [runEncodePayload_of_empty htree hlen, runEncodePayload_of_empty (s := withSource m notes s) htree hlen]
      rfl
    · by_cases hcodes : ∀ v ∈ srcBytes s, codes tr v ≠ []
      · rw [runEncodePayload_of_codes htree hlen hcodes,
          runEncodePayload_of_codes (s := withSource m notes s) htree hlen (hbytes.symm ▸ hcodes), hbytes, append_withSource]
      · push Not at hcodes
        obtain ⟨v, hv, hcode⟩ := hcodes
        rw [runEncodePayload_of_missing htree hv hcode,
          runEncodePayload_of_missing (s := withSource m notes s) htree (hbytes.symm ▸ hv) hcode]
        rfl

theorem runDecodePayload_withSource :
    runDecodePayload (withSource m notes s) = (runDecodePayload s).withSource m notes := by
  simp only [runDecodePayload, contentBits_withSource h notes, append_withSource, withSource_tree]
  split
  · rfl
  · split
    · rfl
    · split <;> rfl

end

/-! ### The runs of the commands -/

theorem andThen_withSource {m : List Host.Cell} {notes : List Nat} {r : Run} {f : State → Run}
    (hf : f (withSource m notes r.state) = (f r.state).withSource m notes) :
    (r.withSource m notes).andThen f = (r.andThen f).withSource m notes := by
  by_cases hok : r.error = .none
  · rw [andThen_of_none hok, andThen_of_none (r := r.withSource m notes) hok, ← hf]
    rfl
  · rw [andThen_of_error hok, andThen_of_error (r := r.withSource m notes) hok]

theorem partialOutput_withSource (m : List Host.Cell) (notes : List Nat) (p : ErrorCode → Bool) (o : Nat) (r : Run) :
    (r.withSource m notes).partialOutput p o = (r.partialOutput p o).withSource m notes := by
  cases hp : p r.error with
  | true =>
    rw [partialOutput_of_true hp, partialOutput_of_true (r := r.withSource m notes) hp]
    rfl
  | false => rw [partialOutput_of_false hp, partialOutput_of_false (r := r.withSource m notes) hp]

theorem outputStart_withSource (i : Instr) (m : List Host.Cell) (notes : List Nat) (s : State) :
    outputStart i (withSource m notes s) = outputStart i s := by
  cases i <;> rfl

section
variable {m : List Host.Cell} {s : State} (h : SameSource m s) (notes : List Nat)
include h

/-- The parts of ENCODE keep SRC and SRC_LEN, so each reads the same source. -/
theorem runEncode_withSource : runEncode (withSource m notes s) = (runEncode s).withSource m notes := by
  have hcount := runCount_withSource (s := { s with outLen := 0#32 }) h notes
  have hpayload := runEncodePayload_withSource (h.of_keepsHostSide (andThen_keepsHostSide
    (andThen_keepsHostSide (r := runCount { s with outLen := 0#32 }) (keepsHostSide_refl s) runBuild_keepsHostSide)
    runSerialize_keepsHostSide)) notes
  have hstart : runCount { withSource m notes s with outLen := 0#32 } =
      (runCount { s with outLen := 0#32 }).withSource m notes := hcount
  rw [runEncode, hstart, andThen_withSource (runBuild_withSource ..), andThen_withSource (runSerialize_withSource ..),
    andThen_withSource hpayload, runEncode]

theorem runDecode_withSource : runDecode (withSource m notes s) = (runDecode s).withSource m notes := by
  have hpayload := runDecodePayload_withSource
    (h.of_keepsHostSide (runDeserialize_keepsHostSide { s with outLen := 0#32 })) notes
  have hstart : runDeserialize { withSource m notes s with outLen := 0#32 } =
      (runDeserialize { s with outLen := 0#32 }).withSource m notes :=
    runDeserialize_withSource (s := { s with outLen := 0#32 }) h notes
  rw [runDecode, hstart, andThen_withSource hpayload, runDecode]

theorem bareRun_withSource (i : Instr) : bareRun i (withSource m notes s) = (bareRun i s).withSource m notes := by
  cases i with
  | clear => rfl
  | count => exact runCount_withSource h notes
  | build => exact runBuild_withSource m notes s
  | serialize => exact runSerialize_withSource m notes s
  | deserialize => exact runDeserialize_withSource h notes
  | encodePayload => exact runEncodePayload_withSource h notes
  | decodePayload => exact runDecodePayload_withSource h notes
  | encode => exact runEncode_withSource h notes
  | decode => exact runDecode_withSource h notes

theorem runOf_withSource (i : Instr) : runOf i (withSource m notes s) = (runOf i s).withSource m notes := by
  rw [runOf, outputStart_withSource, bareRun_withSource h, partialOutput_withSource, runOf]

end

/-! ### Completion -/

theorem spoilDst_withSource (as : List Nat) (m : List Host.Cell) (notes : List Nat) (s : State) :
    spoilDst as (withSource m notes s) = withSource m notes (spoilDst as s) := by
  induction as generalizing s with
  | nil => rfl
  | cons a as ih => exact ih (unspecifyDst a (a + 1) s)

/-- A run of the same command completes alike, but for SRC and for the bytes the notes name. -/
theorem finish_withSource (w : Written) (o : Nat) (m : List Host.Cell) (notes : List Nat) (s : State) (r : Run) :
    ∃ r' : Run, finish w o s r = { spoilDst s.dstHazard r'.state with
        pending := .idle, done := true, error := r'.error, srcHazard := false, dstHazard := [] } ∧
      finish w o (withSource m notes s) (r.withSource m notes) = { spoilDst notes r'.state with
        src := m
        pending := .idle, done := true, error := r'.error, srcHazard := false, dstHazard := [] } := by
  cases h : s.srcHazard with
  | false =>
    refine ⟨r, finish_of_srcHazard_false h w o r, ?_⟩
    rw [finish_of_srcHazard_false (s := withSource m notes s) h, Run.withSource, spoilDst_withSource]
    rfl
  | true =>
    refine ⟨unstableRun w o s, finish_of_srcHazard_true h w o r, ?_⟩
    have hunstable : unstableRun w o (withSource m notes s) = (unstableRun w o s).withSource m notes := rfl
    rw [finish_of_srcHazard_true (s := withSource m notes s) h, hunstable, Run.withSource, spoilDst_withSource]
    rfl

/-- Settles O54: the run reads SRC below SRC_LEN alone, and completion carries SRC along. -/
theorem commandsReadOnlyTheSource : Obligations.CommandsReadOnlyTheSource := by
  intro i s t m h hexec
  rw [exec_eq_finish_runOf] at hexec
  cases hexec
  obtain ⟨r', ht, hu⟩ := finish_withSource (writtenBy i) (outputStart i s) m s.dstHazard s (runOf i s)
  have hother : exec i (withSource m s.dstHazard s) = _ := exec_eq_finish_runOf i _
  rw [runOf_withSource h, outputStart_withSource, hu] at hother
  rw [ht]
  exact hother

/-! ### Disturbed output -/

/-- Spoiling bytes of DST reaches DST and the draws, and no other field. -/
theorem spoilDst_eq (as : List Nat) (s : State) :
    spoilDst as s =
      { s with dst := (spoilDst as s).dst, dstFree := (spoilDst as s).dstFree, draws := (spoilDst as s).draws } := by
  induction as generalizing s with
  | nil => rfl
  | cons a as ih => exact ih (unspecifyDst a (a + 1) s)

/-- Settles O53: the run does not read the notes, and completion spoils the bytes they name. -/
theorem disturbedOutputSpoilsOnlyThoseBytes : Obligations.DisturbedOutputSpoilsOnlyThoseBytes := by
  intro i s
  obtain ⟨r', ht, hu⟩ := finish_withSource (writtenBy i) (outputStart i s) s.src [] s (runOf i s)
  have hexec := exec_eq_finish_runOf i s
  have hother : exec i (withSource s.src [] s) = _ := exec_eq_finish_runOf i _
  rw [runOf_withSource (sameSource_self s), outputStart_withSource, hu] at hother
  rw [ht] at hexec
  have hsrc : r'.state.src = s.src := by
    obtain ⟨t, hexec', _, _, _, _, _, _, _, _, hsrc, _⟩ := exec_completes i s
    rw [hexec] at hexec'
    cases hexec'
    exact (spoilDst_src _ _).symm.trans hsrc
  refine ⟨_, _, hexec, hother, fun a ha => dstRead_spoilDst s.dstHazard r'.state a ha, ?_⟩
  rw [spoilDst_eq, ← hsrc]
  rfl

end Sys2Proof.Machine

/-! PROOF. The codec of command words, and which event a step takes (30_encoding.md R104, 43_operations.md R230, R239). -/
namespace Sys2Proof

/-- Settles O1: the decoder looks the word's opcode up in the map the encoder takes it from. -/
theorem encodeThenDecodeIsIdentity : Obligations.EncodeThenDecodeIsIdentity := fun i _ => decode_encode i

theorem exists_decodeOp_of_assigned {op : Nat} (hpos : 1 ≤ op) (hle : op ≤ 9) : ∃ i, decodeOp op = .ok i := by
  interval_cases op <;> exact ⟨_, rfl⟩

/-- A word that is legal by both fields is a command's. -/
theorem exists_decode_of_legal {w : Word} (hreserved : w.extractLsb' 4 28 = 0#28) (hzero : w.extractLsb' 0 4 ≠ 0#4)
    (hlt : (w.extractLsb' 0 4).toNat < 10) : ∃ i, decode w = .ok i := by
  have hpos : (w.extractLsb' 0 4).toNat ≠ 0 := fun h => hzero (BitVec.eq_of_toNat_eq h)
  obtain ⟨i, hi⟩ := exists_decodeOp_of_assigned (Nat.pos_of_ne_zero hpos) (Nat.le_of_lt_succ hlt)
  exact ⟨i, by rw [decode, if_pos hreserved, hi]⟩

/-- Settles O3: a word that breaks the condition is no command's, and one that meets it is decoded. -/
theorem illegalWordsAreRejected : Obligations.IllegalWordsAreRejected := by
  refine fun w => ⟨fun ⟨e, hreject⟩ => ?_, Machine.decode_error_of_illegal⟩
  by_contra hlegal
  push Not at hlegal
  obtain ⟨hreserved, hzero, hlt⟩ := hlegal
  obtain ⟨i, hdecode⟩ := exists_decode_of_legal hreserved hzero hlt
  rw [hreject] at hdecode
  cases hdecode

/-- Settles O4: six words, decoded. -/
theorem tableWordsDecode : Obligations.TableWordsDecode := by
  unfold Obligations.TableWordsDecode
  decide

theorem tableWord_encode (i : Instr) : tableWord 32 (encode i).toNat = encode i := by
  cases i <;> rfl

end Sys2Proof

namespace Sys2Proof.Machine

theorem coreTurn_legal {s : State} {w : Word} {i : Instr} (hrun : s.pending = .running w) (hdecode : decode w = .ok i) :
    coreTurn s = exec i s := by
  rw [coreTurn, hrun]
  simp only [hdecode]

/-- The step from a fetched word is the core's turn on the state after acceptance, whether or not events are to come. -/
theorem step_withFetchWord (s : State) (nbits w : Nat) :
    step (s.withFetchWord nbits w) = coreTurn (accept (tableWord nbits w) s) := by
  have haccepted : accept (tableWord nbits w) s = { accept (tableWord nbits w) s with inbox := s.inbox } := rfl
  cases hinbox : s.inbox with
  | nil =>
    have hfetch : s.withFetchWord nbits w = accept (tableWord nbits w) s := by
      rw [State.withFetchWord, haccepted, hinbox]
    rw [hfetch, step_of_no_event ((accept_inbox _ s).trans hinbox)]
  | cons e es =>
    have hfetch : (s.withFetchWord nbits w).inbox = .core :: e :: es := by rw [State.withFetchWord, hinbox]
    rw [step_of_core_event hfetch, haccepted, hinbox, State.withFetchWord]

/-- Settles O8: the core's turn on a legal word is its command's meaning, and the word of a command decodes to it. -/
theorem stepRunsTheDecodedCommand : Obligations.StepRunsTheDecodedCommand := by
  refine ⟨fun s w i hrun hdecode => ⟨fun hinbox => ?_, fun es hinbox => ?_⟩, fun s i => ?_⟩
  · rw [step_of_no_event hinbox, coreTurn_legal hrun hdecode]
  · rw [step_of_core_event hinbox, coreTurn_legal (s := { s with inbox := es }) hrun hdecode]
  · rw [step_withFetchWord, tableWord_encode, coreTurn_legal (accept_pending _ s) (decode_encode i)]

theorem step_of_reset_event {s : State} {es : List Event} (h : s.inbox = .reset :: es) :
    step s = .next (resetCore { s with inbox := es }) := by
  rw [step, h]

/-- Settles O9: the step looks at the first event alone. -/
theorem stepTakesTheNextEvent : Obligations.StepTakesTheNextEvent := fun _ _ =>
  ⟨fun _ => step_of_host_event, step_of_reset_event⟩

end Sys2Proof.Machine

/-! PROOF. What a host read returns, idle and while a command runs (43_operations.md R236, 10_state.md R22 to R37, R47). -/
namespace Sys2Proof.Machine

/-! ### The STATUS word as a number (10_state.md R23) -/

theorem toNat_append_eq {m n : Nat} (x : BitVec m) (y : BitVec n) : (x ++ y).toNat = x.toNat * 2 ^ n + y.toNat := by
  rw [BitVec.toNat_append, ← Nat.shiftLeft_add_eq_or_of_lt y.isLt, Nat.shiftLeft_eq]

theorem packStatus_toNat (irq treeValid freqValid : Bool) (lastOp code : BitVec 4) (err done busy : Bool) :
    (packStatus irq treeValid freqValid lastOp code err done busy).toNat =
      busy.toNat + 2 * done.toNat + 4 * err.toNat + 16 * code.toNat + 256 * lastOp.toNat + 4096 * freqValid.toNat +
        8192 * treeValid.toNat + 16384 * irq.toNat := by
  simp only [packStatus, toNat_append_eq, BitVec.toNat_ofBool, BitVec.toNat_ofNat]
  omega

/-! ### The registers by their offsets (10_state.md R21) -/

theorem regAt_freq (v : Byte) : regAt (0x400 + 4 * v.toNat) = .freq v := by
  have hv : v.toNat < 256 := v.isLt
  have hindex : (0x400 + 4 * v.toNat - 0x400) / 4 = v.toNat := by omega
  unfold regAt
  rw [hindex, BitVec.ofNat_toNat, BitVec.setWidth_eq]
  iterate 9 rw [if_neg (by omega)]
  rw [if_pos (by omega)]

theorem regAt_codeLen (v : Byte) : regAt (0x800 + 4 * v.toNat) = .codeLen v := by
  have hv : v.toNat < 256 := v.isLt
  have hindex : (0x800 + 4 * v.toNat - 0x800) / 4 = v.toNat := by omega
  unfold regAt
  rw [hindex, BitVec.ofNat_toNat, BitVec.setWidth_eq]
  iterate 10 rw [if_neg (by omega)]
  rw [if_pos (by omega)]

theorem regValue_ctrl_toNat (s : State) : (regValue s .ctrl).toNat = s.irqEn.toNat := by
  rw [regValue]
  cases s.irqEn <;> rfl

theorem toNat_setWidth_ofNat {n k : Nat} (hk : k ≤ 32) (hn : n < 2 ^ k) :
    ((BitVec.ofNat k n).setWidth 32).toNat = n := by
  have hle : 2 ^ k ≤ 2 ^ 32 := Nat.pow_le_pow_right (by omega) hk
  rw [BitVec.toNat_setWidth, BitVec.toNat_ofNat, Nat.mod_eq_of_lt hn, Nat.mod_eq_of_lt (Nat.lt_of_lt_of_le hn hle)]

/-! ### Reads while idle -/

theorem readData_of_idle {s t : State} (hidle : s.pending = .idle) {off : Nat} (hoff : off < 0x4000) (halign : off % 4 = 0)
    (h : hostAction (.read off 4) s = .next t) : t.readData = regValue s (regAt off) := by
  rw [hostAction_read hoff halign, hostRead_idle hidle] at h
  cases h
  rfl

/-- Settles O13: a read looks the register at the offset up and puts its value into the value read. -/
theorem hostReadRules : Obligations.HostReadRules := by
  intro s hidle
  have hread : ∀ {t : State} {off : Nat} {r : Reg}, off < 0x4000 → off % 4 = 0 → regAt off = r →
      hostAction (.read off 4) s = .next t → t.readData = regValue s r := fun hoff halign hreg h =>
    hreg ▸ readData_of_idle hidle hoff halign h
  refine ⟨fun off hoff halign => ⟨_, by rw [hostAction_read hoff halign, hostRead_idle hidle]⟩,
    fun t => hread (by decide) (by decide) rfl, fun t h => ?status, fun t h => ?ctrl,
    fun t => hread (by decide) (by decide) rfl, fun t => hread (by decide) (by decide) rfl,
    fun t => hread (by decide) (by decide) rfl, fun t => hread (by decide) (by decide) rfl,
    fun t hle h => ?leafCnt, fun t v h => ?freq, fun t v hle h => ?codeLen⟩
  case status =>
    rw [hread (r := .status) (by decide) (by decide) rfl h, regValue, statusWord, packStatus_toNat, busy_of_idle hidle]
    simp only [Bool.toNat_false, Nat.zero_add, State.err, State.treeValid, State.irq]
  case ctrl => rw [hread (r := .ctrl) (by decide) (by decide) rfl h, regValue_ctrl_toNat]
  case leafCnt =>
    rw [hread (r := .leafCnt) (by decide) (by decide) rfl h, regValue, toNat_setWidth_ofNat (by decide) (by omega)]
  case freq =>
    have hv : v.toNat < 256 := v.isLt
    rw [hread (by omega) (by omega) (regAt_freq v) h, regValue]
  case codeLen =>
    have hv : v.toNat < 256 := v.isLt
    rw [hread (by omega) (by omega) (regAt_codeLen v) h, regValue, toNat_setWidth_ofNat (by decide) (by omega)]

/-! ### Reads while a command runs -/

theorem readData_of_running {s t : State} {w : Word} (hrun : s.pending = .running w) {off : Nat} (hoff : off < 0x4000)
    (halign : off % 4 = 0) (h : hostAction (.read off 4) s = .next t) :
    t.readData = busyValue s w (Config.freeWord s.draws off) (regAt off) := by
  rw [hostAction_read hoff halign, hostRead_running hrun] at h
  cases h
  rfl

/-- The fields of STATUS while BUSY, whatever FREQ_VALID and TREE_VALID read as. -/
theorem packStatus_busy (treeValid freqValid : Bool) (lastOp : BitVec 4) :
    (packStatus false treeValid freqValid lastOp 0#4 false false true).extractLsb' 0 8 = 0x01#8 ∧
      (packStatus false treeValid freqValid lastOp 0#4 false false true).extractLsb' 8 4 = lastOp ∧
      (packStatus false treeValid freqValid lastOp 0#4 false false true).extractLsb' 14 18 = 0#18 := by
  have hop := lastOp.isLt
  have hfreq := Bool.toNat_le freqValid
  have htree := Bool.toNat_le treeValid
  refine ⟨BitVec.eq_of_toNat_eq ?_, BitVec.eq_of_toNat_eq ?_, BitVec.eq_of_toNat_eq ?_⟩ <;>
  · rw [BitVec.extractLsb'_toNat, packStatus_toNat, Nat.shiftRight_eq_div_pow]
    simp only [Bool.toNat_true, Bool.toNat_false, BitVec.toNat_ofNat]
    omega

/-- Settles O15: a read while BUSY takes a draw, and only a register that has a value then gives it. -/
theorem busyReadRules : Obligations.BusyReadRules := by
  intro s w hrun
  refine ⟨fun off hoff halign => ⟨_, _, by rw [hostAction_read hoff halign, hostRead_running hrun]⟩,
    fun t => readData_of_running hrun (by decide) (by decide), fun t h => ?status, fun t h => ?ctrl,
    fun t => readData_of_running hrun (by decide) (by decide), fun t => readData_of_running hrun (by decide) (by decide)⟩
  case status =>
    have hdata : t.readData = packStatus false _ _ _ _ _ _ _ := readData_of_running hrun (by decide) (by decide) h
    rw [hdata]
    exact packStatus_busy _ _ _
  case ctrl =>
    rw [readData_of_running hrun (by decide) (by decide) h]
    exact regValue_ctrl_toNat s

/-! ### The memories -/

theorem spaceAccess_inside {a : Nat} (ha : a < 2 ^ 32) (f : State → State) (s : State) : spaceAccess a f s = .next (f s) :=
  if_pos ha

theorem spaceAccess_outside {a : Nat} (ha : 2 ^ 32 ≤ a) (f : State → State) (s : State) :
    spaceAccess a f s = .fault (.noSuchOffset a) :=
  if_neg (Nat.not_lt.mpr ha)

theorem loadDst_idle {s : State} (hidle : s.pending = .idle) (a : Nat) :
    loadDst a s = { s with readData := (dstRead s a).setWidth 32 } := by
  rw [loadDst, inOutput_of_idle hidle]
  rfl

/-- Settles O18: the three accesses share one check of the offset, and a store writes one cell. -/
theorem hostStoresReachOneByte : Obligations.HostStoresReachOneByte := by
  refine fun s a v => ⟨fun ha => ⟨?_, ?_, ?_⟩, fun ha => ⟨⟨_, spaceAccess_inside ha (storeSrc a v) s, ?_, ?_⟩,
    ⟨_, spaceAccess_inside ha (storeDst a v) s, ?_, ?_⟩, fun hidle => ?_⟩⟩
  · exact spaceAccess_outside ha (storeSrc a v) s
  · exact spaceAccess_outside ha (storeDst a v) s
  · exact spaceAccess_outside ha (loadDst a) s
  · exact srcRead_storeSrc s a v
  · exact congrFun (dstRead_congr rfl rfl)
  · exact dstRead_storeDst s a v
  · exact congrFun (srcRead_congr rfl)
  · exact (spaceAccess_inside ha (loadDst a) s).trans (congrArg _ (loadDst_idle hidle a))

end Sys2Proof.Machine
